-- ==== Sys2Proof/Word.lean ====
section
/-!
DEFINITION. The Word: the one kind of integer CORE holds (spec/00_scope.md R6).

A Word is an INTEGER in a range. No instruction exposes its bits (R6), every operation of the spec is exact integer
arithmetic (R9), so a Word is an Int with the proof that it lies in the range, not a bit vector (log 1).
-/
namespace Sys2Proof

/-- R6: `WORD_MIN = -2^63`. -/
abbrev wordMin : Int := -9223372036854775808

/-- R6: `WORD_MAX = 2^63 - 1`. -/
abbrev wordMax : Int := 9223372036854775807

/-- R6: the integers that are Words. -/
abbrev InWord (v : Int) : Prop := wordMin ≤ v ∧ v ≤ wordMax

/-- R6: a Word, one signed integer of `WORD_BITS = 64` bits. -/
@[ext]
structure Word where
  val : Int
  inRange : InWord val
deriving DecidableEq, Repr

/-- The integer `v` as a Word, where it is one. -/
def Word.ofInt? (v : Int) : Option Word :=
  if h : InWord v then some ⟨v, h⟩ else none

/-- A Word written out as a numeral. -/
def word (v : Int) (h : InWord v := by decide) : Word := ⟨v, h⟩

/-- The Word 0, which every cell beyond the program holds at reset (spec/10_state.md R35). -/
def Word.zero : Word := word 0

end Sys2Proof
end

