-- ==== Sys2Proof/Syntax.lean ====
section
/-!
DEFINITION. Syntax: addressing modes, parameters, opcodes, instruction-word headers and the ten instructions
(spec/30_encoding.md). One constructor of `Instr` for each row of spec/opcode_table.json, in the table's order.
-/
namespace Sys2Proof

/-- R86: the three addressing modes, by the document's names (R17). -/
inductive Mode where
  | position
  | immediate
  | relative
deriving DecidableEq, Repr

/-- One parameter of an instruction: its mode, and the raw parameter, a whole Word (R87). -/
structure Param where
  mode : Mode
  raw : Word
deriving DecidableEq, Repr

/-- R88: the ten assigned opcodes. -/
inductive Opcode where
  | add
  | mul
  | input
  | output
  | jumpIfTrue
  | jumpIfFalse
  | lessThan
  | equals
  | adjustRelativeBase
  | halt
deriving DecidableEq, Repr

/-- What the decoder reads from an instruction word (R112): the opcode and the three mode digits. The mode of a
parameter the opcode does not have is Position, digit 0 (R94). -/
structure Header where
  op : Opcode
  m1 : Mode
  m2 : Mode
  m3 : Mode
deriving DecidableEq, Repr

/-- R2, R88: the instruction set, "closed and fixed". Parameters stand in the table's order (R80). -/
inductive Instr where
  | add (a b dst : Param)
  | mul (a b dst : Param)
  | input (dst : Param)
  | output (a : Param)
  | jumpIfTrue (cond target : Param)
  | jumpIfFalse (cond target : Param)
  | lessThan (a b dst : Param)
  | equals (a b dst : Param)
  | adjustRelativeBase (a : Param)
  | halt
deriving DecidableEq, Repr

end Sys2Proof
end

