-- ==== Sys2Proof/WellFormed.lean ====
section
/-!
DEFINITION. Well-formed instructions (spec/30_encoding.md R85, R86). That a raw parameter is a Word (R87) is in its type.
The one thing left to check is that no write parameter is Immediate.
-/
namespace Sys2Proof

/-- R86: a write parameter may be Position or Relative; "using Immediate as a *write* target is a fatal decode error". -/
def Param.writable (p : Param) : Bool :=
  match p.mode with
  | .position => true
  | .immediate => false
  | .relative => true

/-- R85, R86: the write parameters are parameter 3 of Add, Mul, LessThan, Equals and parameter 1 of Input. Every mode is
legal for a read parameter. -/
def Instr.wellFormed (i : Instr) : Bool :=
  match i with
  | .add _ _ dst => dst.writable
  | .mul _ _ dst => dst.writable
  | .input dst => dst.writable
  | .output _ => true
  | .jumpIfTrue _ _ => true
  | .jumpIfFalse _ _ => true
  | .lessThan _ _ dst => dst.writable
  | .equals _ _ dst => dst.writable
  | .adjustRelativeBase _ => true
  | .halt => true

end Sys2Proof
end

