-- ==== Sys2Proof/Decode.lean ====
section
/-!
DEFINITION. The decoder, total on any cells and rejecting by name (spec/30_encoding.md, spec/40_execution_cycle.md R112),
and after it the encoder, both written from the same tables (R81, R84, R88).
-/
namespace Sys2Proof

/-- R10: the decimal digit of weight `10^k` of `w >= 0`. -/
def digit (w k : Nat) : Nat := w / 10 ^ k % 10

/-- R88: the number of an opcode. -/
def Opcode.number (op : Opcode) : Nat :=
  match op with
  | .add => 1
  | .mul => 2
  | .input => 3
  | .output => 4
  | .jumpIfTrue => 5
  | .jumpIfFalse => 6
  | .lessThan => 7
  | .equals => 8
  | .adjustRelativeBase => 9
  | .halt => 99

/-- R88, R89: the opcode of a number; every other value, 0 and 10 to 98, is unassigned. -/
def Opcode.ofNumber? (n : Nat) : Option Opcode :=
  match n with
  | 1 => some .add
  | 2 => some .mul
  | 3 => some .input
  | 4 => some .output
  | 5 => some .jumpIfTrue
  | 6 => some .jumpIfFalse
  | 7 => some .lessThan
  | 8 => some .equals
  | 9 => some .adjustRelativeBase
  | 99 => some .halt
  | _ => none

/-- R84: how many parameters an opcode has. -/
def Opcode.paramCount (op : Opcode) : Nat :=
  match op with
  | .add => 3
  | .mul => 3
  | .input => 1
  | .output => 1
  | .jumpIfTrue => 2
  | .jumpIfFalse => 2
  | .lessThan => 3
  | .equals => 3
  | .adjustRelativeBase => 1
  | .halt => 0

/-- R85: which parameter, counted from 1, is the write parameter. -/
def Opcode.writeParam (op : Opcode) : Option Nat :=
  match op with
  | .add => some 3
  | .mul => some 3
  | .input => some 1
  | .output => none
  | .jumpIfTrue => none
  | .jumpIfFalse => none
  | .lessThan => some 3
  | .equals => some 3
  | .adjustRelativeBase => none
  | .halt => none

/-- R86: the digit of a mode. -/
def Mode.digit (m : Mode) : Nat :=
  match m with
  | .position => 0
  | .immediate => 1
  | .relative => 2

/-- R86: the mode of a digit. The decoder asks only for the digits 0, 1 and 2: it rejects the others first. -/
def Mode.ofDigit (d : Nat) : Mode :=
  match d with
  | 0 => .position
  | 1 => .immediate
  | _ => .relative

/-- Why decoding rejects an instruction word: the decode faults of spec/60_exceptions.md R221. -/
inductive DecodeError where
  | illegalOpcode
  | illegalMode
  | immediateWriteTarget
  | reservedEncoding
deriving DecidableEq, Repr

/-- R112: `Decode(w)`, the checks in the spec's order (decision D9), the first that fails naming the error:
(1) negative word, (2) unknown opcode, (3) digits above the fifth, (4) unknown mode digit of a parameter the opcode has,
(5) mode digit without a parameter, (6) Immediate write target. -/
def decodeHeader (w : Word) : Except DecodeError Header :=
  if w.val < 0 then .error .illegalOpcode
  else
    let n := w.val.toNat
    match Opcode.ofNumber? (n % 100) with
    | none => .error .illegalOpcode
    | some op =>
      let digits := [digit n 2, digit n 3, digit n 4]
      if n / 100000 ≠ 0 then .error .reservedEncoding
      else if (digits.take op.paramCount).any (2 < ·) then .error .illegalMode
      else if (digits.drop op.paramCount).any (· ≠ 0) then .error .reservedEncoding
      else if op.writeParam.any (fun k => digit n (k + 1) = 1) then .error .immediateWriteTarget
      else .ok ⟨op, Mode.ofDigit (digit n 2), Mode.ofDigit (digit n 3), Mode.ofDigit (digit n 4)⟩

/-- R80, R88: the instruction of a header and its raw parameters. An opcode takes as many of `p1`, `p2`, `p3` as it has
parameters. -/
def Header.instr (h : Header) (p1 p2 p3 : Word) : Instr :=
  match h.op with
  | .add => .add ⟨h.m1, p1⟩ ⟨h.m2, p2⟩ ⟨h.m3, p3⟩
  | .mul => .mul ⟨h.m1, p1⟩ ⟨h.m2, p2⟩ ⟨h.m3, p3⟩
  | .input => .input ⟨h.m1, p1⟩
  | .output => .output ⟨h.m1, p1⟩
  | .jumpIfTrue => .jumpIfTrue ⟨h.m1, p1⟩ ⟨h.m2, p2⟩
  | .jumpIfFalse => .jumpIfFalse ⟨h.m1, p1⟩ ⟨h.m2, p2⟩
  | .lessThan => .lessThan ⟨h.m1, p1⟩ ⟨h.m2, p2⟩ ⟨h.m3, p3⟩
  | .equals => .equals ⟨h.m1, p1⟩ ⟨h.m2, p2⟩ ⟨h.m3, p3⟩
  | .adjustRelativeBase => .adjustRelativeBase ⟨h.m1, p1⟩
  | .halt => .halt

/-- Why a list of cells is no instruction: its first word is illegal, or the list ends before the last parameter. -/
inductive Reject where
  | illegal (e : DecodeError)
  | truncated
deriving DecidableEq, Repr

/-- R80, R96: the instruction at the head of a list of cells, and the cells after it. The length comes from the opcode
alone. -/
def decode (cells : List Word) : Except Reject (Instr × List Word) :=
  match cells with
  | [] => .error .truncated
  | w :: ps =>
    match decodeHeader w with
    | .error e => .error (.illegal e)
    | .ok h =>
      if ps.length < h.op.paramCount then .error .truncated
      else .ok (h.instr (ps.getD 0 .zero) (ps.getD 1 .zero) (ps.getD 2 .zero), ps.drop h.op.paramCount)

/-! The encoder. -/

/-- R81, R98: `op + 100*m1 + 1000*m2 + 10000*m3`. -/
def Header.number (h : Header) : Nat :=
  h.op.number + 100 * h.m1.digit + 1000 * h.m2.digit + 10000 * h.m3.digit

theorem Header.number_inWord (h : Header) : InWord (h.number : Int) := by
  obtain ⟨op, m1, m2, m3⟩ := h
  cases op <;> cases m1 <;> cases m2 <;> cases m3 <;> decide

/-- R81: the instruction word of a header. -/
def encodeHeader (h : Header) : Word := ⟨h.number, h.number_inWord⟩

/-- R82 to R85: the opcode and the modes of an instruction; an absent parameter has digit 0 (R94). -/
def Instr.header (i : Instr) : Header :=
  match i with
  | .add a b dst => ⟨.add, a.mode, b.mode, dst.mode⟩
  | .mul a b dst => ⟨.mul, a.mode, b.mode, dst.mode⟩
  | .input dst => ⟨.input, dst.mode, .position, .position⟩
  | .output a => ⟨.output, a.mode, .position, .position⟩
  | .jumpIfTrue cond target => ⟨.jumpIfTrue, cond.mode, target.mode, .position⟩
  | .jumpIfFalse cond target => ⟨.jumpIfFalse, cond.mode, target.mode, .position⟩
  | .lessThan a b dst => ⟨.lessThan, a.mode, b.mode, dst.mode⟩
  | .equals a b dst => ⟨.equals, a.mode, b.mode, dst.mode⟩
  | .adjustRelativeBase a => ⟨.adjustRelativeBase, a.mode, .position, .position⟩
  | .halt => ⟨.halt, .position, .position, .position⟩

/-- R80: the raw parameters of an instruction, in the order of their cells. -/
def Instr.rawParams (i : Instr) : List Word :=
  match i with
  | .add a b dst => [a.raw, b.raw, dst.raw]
  | .mul a b dst => [a.raw, b.raw, dst.raw]
  | .input dst => [dst.raw]
  | .output a => [a.raw]
  | .jumpIfTrue cond target => [cond.raw, target.raw]
  | .jumpIfFalse cond target => [cond.raw, target.raw]
  | .lessThan a b dst => [a.raw, b.raw, dst.raw]
  | .equals a b dst => [a.raw, b.raw, dst.raw]
  | .adjustRelativeBase a => [a.raw]
  | .halt => []

/-- The instruction word of an instruction: the `w` of its rule, which ArithmeticOverflow records (R121; log 13). -/
def Instr.word (i : Instr) : Word := encodeHeader i.header

/-- R84: the length of an instruction in cells. -/
def Instr.length (i : Instr) : Nat := 1 + i.header.op.paramCount

/-- R80: the cells of an instruction. -/
def encode (i : Instr) : List Word := i.word :: i.rawParams

/-! The host's words. The spec has no bits; these say how a number of the host's is laid out in cells (log 15). -/

/-- The Word whose 64-bit two's complement is `n mod 2^64`. -/
def wordOfBits (n : Nat) : Word :=
  let u := n % 18446744073709551616
  if _h : u < 9223372036854775808 then ⟨u, by simp only [InWord, wordMin, wordMax]; omega⟩
  else ⟨u - 18446744073709551616, by simp only [InWord, wordMin, wordMax]; omega⟩

/-- The four cells of the longest instruction: cell `k` holds bits `64 k` to `64 k + 63` of the lowest `nbits` bits of
`w`, the instruction word first. -/
def tableCells (nbits w : Nat) : List Word :=
  let n := w % 2 ^ nbits
  [wordOfBits n, wordOfBits (n / 18446744073709551616), wordOfBits (n / 18446744073709551616 ^ 2),
    wordOfBits (n / 18446744073709551616 ^ 3)]

/-- The instruction the decoder reads from a host's word. -/
def decodeTableWord (nbits w : Nat) : Option Instr :=
  match decode (tableCells nbits w) with
  | .ok (i, _) => some i
  | .error _ => none

end Sys2Proof
end

