-- ==== Sys2Proof/Config.lean ====
section
/-!
DEFINITION. What is fixed for one machine (spec/00_scope.md R7, R8), and the value the spec leaves free.
-/
namespace Sys2Proof

/-- The one implementation parameter (R8): `MEM_CAPACITY`, with `1 <= MEM_CAPACITY <= 2^63 - 4` (R7, decision D3).
A structure, so that no machine outside the range can be written. -/
structure Config where
  memCapacity : Nat
  atLeastOne : 1 ≤ memCapacity
  atMost : memCapacity ≤ 9223372036854775804
deriving DecidableEq, Repr

/-- R7: the default, the growable reading, `MEM_CAPACITY = 2^63 - 4`. -/
def Config.default : Config := ⟨9223372036854775804, by decide, by decide⟩

/-- FREE VALUE (DESIGN CHOICE, log 8). What memory holds after the `n`-th failed `load`: "the model must treat every
`mem[a]` as an arbitrary Word" (spec/10_state.md R36). No body: nothing can be proved of it. A list of cells, since a
memory of `MEM_CAPACITY` cells has only finitely many. -/
opaque Config.failedLoadCells (n : Nat) : List (Nat × Word)

end Sys2Proof
end

