-- ==== Sys2Proof/Machine/State.lean ====
section
/-!
DEFINITION. The whole state of one Machine, `(mem, pc, rb, ctl, cause, finfo)` (spec/10_state.md, spec/00_scope.md R19),
its capacity, the caller's side of the transactions (spec/47_host_transactions.md), and the state after reset.
-/
namespace Sys2Proof.Machine

/-- R27: the run-state register `ctl`. Its numeric codes are `Ctl.code`. -/
inductive Ctl where
  /-- loaded; no `resume` has been issued yet -/
  | fresh
  /-- between transactions, or inside `resume`; the instruction at `pc` is the next to execute -/
  | ready
  /-- `resume` returned `InputRequested`; `pc` is the address of an Input instruction not yet completed -/
  | awaitingInput
  /-- a Halt instruction executed -/
  | halted
  /-- a fatal condition occurred; `cause` and `finfo` describe it -/
  | faulted
deriving DecidableEq, Repr

/-- R28, R221: the causes of a fault. `none` is code 0, "when `ctl != Faulted`". Their codes are `Cause.code`. -/
inductive Cause where
  | none
  | illegalOpcode
  | illegalMode
  | immediateWriteTarget
  | reservedEncoding
  | fetchOutOfBounds
  | readOutOfBounds
  | writeOutOfBounds
  | arithmeticOverflow
  | protocolViolation
  | loadTooLarge
deriving DecidableEq, Repr

/-- R190: the transactions a caller issues. -/
inductive Call where
  /-- reset with a program: the document's Construction -/
  | load (program : List Word)
  /-- run until the program needs input, produces an output, halts or faults -/
  | resume
  /-- complete a pending Input with a value -/
  | supplyInput (v : Word)
  /-- read one cell -/
  | peek (addr : Int)
  /-- read the registers -/
  | status
deriving DecidableEq, Repr

/-- R190: the responses. `inputRequested`, `output` and `halted` are the document's Signal (R30). -/
inductive Response where
  | ack
  | inputRequested
  | output (v : Word)
  | halted
  | fault (cause : Cause) (finfo : Int)
  | value (v : Word)
  | invalid
  | status (ctl : Ctl) (pc rb : Word) (cause : Cause) (finfo : Int)
deriving DecidableEq, Repr

/-- R32, R33: memory, as the cells that do not read 0: pairs of an address and a Word. One cell holds one Word; the spec
forbids bytes (R51), so these are not the host's byte cells (log 2). -/
structure Memory where
  cells : List (Nat × Word)
deriving DecidableEq, Repr

/-- The canonical form of a memory: addresses strictly rising, and no listed cell holds 0, which is what an unlisted
address reads as (R35, R55). -/
abbrev Memory.wf (m : Memory) : Prop :=
  m.cells.Pairwise (fun x y => x.1 < y.1) ∧ ∀ c ∈ m.cells, c.2 ≠ .zero

/-- The state. `mem` to `finfo` are all the spec gives the machine (R19, R34); `cfg` is its parameter; the last three
fields are the model's own. -/
structure State where
  /-- R7: the capacity, an argument of the model, fixed for the machine; no step changes it (log 3). -/
  cfg : Config
  /-- R32: memory. -/
  mem : Memory
  /-- R21: the program counter, one Word. -/
  pc : Word
  /-- R25: the relative base, one Word. -/
  rb : Word
  /-- R27: the run state. -/
  ctl : Ctl
  /-- R28: the cause of the first fault since reset, or none. -/
  cause : Cause
  /-- R29: what the fault recorded. A 65-bit signed integer, but for the length of a program too long
  for one (R36; log 9): `Safety` states so. -/
  finfo : Int
  /-- MODEL'S OWN (log 4): the transactions of the caller, the one in progress first. With none left the caller
  resumes the machine as long as it is Fresh or Ready (log 5). -/
  calls : List Call
  /-- MODEL'S OWN (log 4): the responses the caller has had, newest first. Nothing in the machine reads them (R30). -/
  responses : List Response
  /-- MODEL'S OWN (log 8): the counter the free value is applied to. -/
  freeTick : Nat
deriving DecidableEq, Repr

/-- The reasons a step stops for good. CORE's own faults are no such stops: they are states, with `ctl = faulted` (R230,
log 6). -/
inductive Fault where
  /-- Raised by `supply_input` in a state with `ctl = AwaitingInput` whose `pc` holds no Input instruction. R38 (a) says
  there is none, and `Safety` states that no step reaches one. SAFE: the model stops where the spec gives no
  behaviour (log 12). -/
  | noInputPending
deriving DecidableEq, Repr

/-- The reasons the model has no meaning for an instruction. -/
inductive Refusal where
  /-- Raised by an arm of exec that has no meaning yet: none. SAFE: it is a stop. -/
  | notModelled (mnemonic : String)
deriving DecidableEq, Repr

/-- R35, R260, R261: the machine right after reset, `load` of the empty program (log 14): all memory 0, `pc = 0`, `rb = 0`,
Fresh, no fault. The capacity is the default (R7). The model's own fields start empty (DESIGN CHOICE, log 4, log 8). -/
def State.reset : State where
  cfg := .default
  mem := ⟨[]⟩
  pc := .zero
  rb := .zero
  ctl := .fresh
  cause := .none
  finfo := 0
  calls := []
  responses := []
  freeTick := 0

end Sys2Proof.Machine
end

