-- ==== Sys2Proof/Machine/Ops.lean ====
section
/-!
DEFINITION. The named operations over memory and registers (spec/20_memory.md), raising a fault (spec/60_exceptions.md
R230), and committing a step (spec/40_execution_cycle.md R125). CORE has no return from a fault (R232): only `load`
leaves Faulted.
-/
namespace Sys2Proof.Machine

/-! Codes. -/

/-- R27: the numeric code of a run state. -/
def Ctl.code (c : Ctl) : Nat :=
  match c with
  | .fresh => 0
  | .ready => 1
  | .awaitingInput => 2
  | .halted => 3
  | .faulted => 4

/-- R221: the numeric code of a cause. -/
def Cause.code (c : Cause) : Nat :=
  match c with
  | .none => 0
  | .illegalOpcode => 1
  | .illegalMode => 2
  | .immediateWriteTarget => 3
  | .reservedEncoding => 4
  | .fetchOutOfBounds => 5
  | .readOutOfBounds => 6
  | .writeOutOfBounds => 7
  | .arithmeticOverflow => 8
  | .protocolViolation => 16
  | .loadTooLarge => 17

/-- R221: the cause of a decode error. -/
def causeOfDecodeError (e : DecodeError) : Cause :=
  match e with
  | .illegalOpcode => .illegalOpcode
  | .illegalMode => .illegalMode
  | .immediateWriteTarget => .immediateWriteTarget
  | .reservedEncoding => .reservedEncoding

/-! Memory (R32, R55, R56). -/

/-- The value of address `a` in a list of cells; an unlisted address reads 0 (R35, R55). -/
def readCells (cells : List (Nat × Word)) (a : Nat) : Word :=
  match cells with
  | [] => .zero
  | c :: rest => if c.1 = a then c.2 else readCells rest a

/-- R32: `mem[a]`. -/
def Memory.read (m : Memory) (a : Nat) : Word := readCells m.cells a

/-- List `v` at address `a`, in the place of what was listed there, keeping the order. -/
def insertCell (a : Nat) (v : Word) (cells : List (Nat × Word)) : List (Nat × Word) :=
  match cells with
  | [] => [(a, v)]
  | c :: rest =>
    if a < c.1 then (a, v) :: c :: rest
    else if a = c.1 then (a, v) :: rest
    else c :: insertCell a v rest

/-- R56: `mem[a] <- v`. Writing 0, which an unlisted address reads as, takes the cell off the list. -/
def Memory.write (m : Memory) (a : Nat) (v : Word) : Memory :=
  if v = .zero then ⟨m.cells.filter (fun c => c.1 ≠ a)⟩ else ⟨insertCell a v m.cells⟩

/-- The listed cells of a program that begins at address `a`. -/
def programCells (a : Nat) (program : List Word) : List (Nat × Word) :=
  match program with
  | [] => []
  | w :: ws => if w = .zero then programCells (a + 1) ws else (a, w) :: programCells (a + 1) ws

/-- R35, R67: element `q_a` of the program becomes `mem[a]`, every other cell is 0. -/
def Memory.ofProgram (program : List Word) : Memory := ⟨programCells 0 program⟩

/-- The memory that any list of cells stands for: written one after another, those beyond the capacity left out. -/
def Memory.ofCells (capacity : Nat) (cells : List (Nat × Word)) : Memory :=
  cells.foldl (fun m c => if c.1 < capacity then m.write c.1 c.2 else m) ⟨[]⟩

/-! Faults. -/

/-- R12: what `raise <Cause>(info)` is given. -/
structure Raised where
  cause : Cause
  info : Int
deriving DecidableEq, Repr

/-- The running transaction ends with response `r` (R190, R193): it leaves the caller's list, and the caller has `r`. -/
def State.respond (s : State) (r : Response) : State :=
  { s with calls := s.calls.tail, responses := r :: s.responses }

/-- R230: fault entry. `ctl <- Faulted; cause <- C; finfo <- info`, `mem`, `pc` and `rb` keep their values, and the running
transaction responds `Fault(cause, finfo)`. Control goes nowhere. -/
def State.raise (s : State) (e : Raised) : State :=
  { s with ctl := .faulted, cause := e.cause, finfo := e.info }.respond (.fault e.cause e.info)

/-- R125: a step changes state only after every check has passed; a step that faults changes nothing but what fault entry
changes in the state it began from. -/
def commit (s : State) (r : Except Raised State) : Host.Outcome State Fault Refusal :=
  match r with
  | .ok t => .next t
  | .error e => .next (s.raise e)

/-! Access primitives (R55 to R57). -/

/-- R54: the valid addresses. -/
abbrev State.validAddr (s : State) (a : Int) : Prop := 0 ≤ a ∧ a < s.cfg.memCapacity

/-- R57: the kinds of access. -/
inductive Access where
  /-- of the instruction word or of a raw parameter -/
  | fetch
  /-- of a Position or Relative read parameter -/
  | read
deriving DecidableEq, Repr

/-- R57: the out-of-bounds fault of an access kind. -/
def Access.cause (k : Access) : Cause :=
  match k with
  | .fetch => .fetchOutOfBounds
  | .read => .readOutOfBounds

/-- R55: `MemRead(addr, 1)`. -/
def memRead (k : Access) (s : State) (a : Int) : Except Raised Word :=
  if s.validAddr a then .ok (s.mem.read a.toNat) else .error ⟨k.cause, a⟩

/-- R56: `MemWrite(addr, 1, v)`. -/
def memWrite (s : State) (a : Int) (v : Word) : Except Raised State :=
  if s.validAddr a then .ok { s with mem := s.mem.write a.toNat v } else .error ⟨.writeOutOfBounds, a⟩

/-! Arithmetic and the program counter. -/

/-- R121: a result that must be stored in a Word; outside the range, `raise ArithmeticOverflow(w)`. -/
def narrow (w : Word) (r : Int) : Except Raised Word :=
  match Word.ofInt? r with
  | some v => .ok v
  | none => .error ⟨.arithmeticOverflow, w.val⟩

/-- R23: `pc <- pc + length`. It never leaves the Words after a fetch, since `MEM_CAPACITY <= 2^63 - 4`. Where the sum is no
Word, `pc` is no valid address, and its fetch had raised the fault given here (R111; log 10). -/
def advance (length : Nat) (s : State) : Except Raised State :=
  match Word.ofInt? (s.pc.val + length) with
  | some p => .ok { s with pc := p }
  | none => .error ⟨.fetchOutOfBounds, s.pc.val⟩

end Sys2Proof.Machine
end

