-- ==== Sys2Proof/Machine/Operands.lean ====
section
/-!
DEFINITION. The addressing-mode resolver (spec/40_execution_cycle.md R118 to R120): every operand form CORE has.
-/
namespace Sys2Proof.Machine

/-- R87, R118, R119: the address a Position or Relative parameter names, an exact integer, never wrapped (decision D4). An
Immediate parameter names none. -/
def effectiveAddress (s : State) (p : Param) : Option Int :=
  match p.mode with
  | .position => some p.raw.val
  | .immediate => none
  | .relative => some (s.rb.val + p.raw.val)

/-- R118: `ReadOperand(m, p)`, the value of a read parameter. -/
def readOperand (s : State) (p : Param) : Except Raised Word :=
  match effectiveAddress s p with
  | some a => memRead .read s a
  | none => .ok p.raw

/-- R119: `WriteAddress(m, p)`, the address of a write parameter, unchecked. The decoder lets no Immediate write parameter
through (R91); of an ill-formed instruction this is the fault its word decodes to, with `w` that word (log 11). -/
def writeAddress (w : Word) (s : State) (p : Param) : Except Raised Int :=
  match effectiveAddress s p with
  | some a => .ok a
  | none => .error ⟨.immediateWriteTarget, w.val⟩

end Sys2Proof.Machine
end

