-- ==== Sys2Proof/Machine/Arithmetic.lean ====
section
/-!
DEFINITION. Add and Mul (spec/41_arithmetic.md), and the shape they share with the comparisons, format F3RRW.
-/
namespace Sys2Proof.Machine

/-- The step of an F3RRW instruction of word `w` after its fetch (R127): resolve `a`, then `b`, then the address of `dst`;
compute `f` of the two values exactly; check that the result is a Word (R121); check the address and write; advance `pc`
by 4. The checks stand in the order of R126. -/
def storeResult (w : Word) (f : Int → Int → Int) (a b dst : Param) (s : State) : Except Raised State := do
  let x ← readOperand s a
  let y ← readOperand s b
  let d ← writeAddress w s dst
  let r ← narrow w (f x.val y.val)
  let t ← memWrite s d r
  advance 4 t

/-- R140: Add, "dst = a+b". -/
def execAdd (a b dst : Param) (s : State) : Host.Outcome State Fault Refusal :=
  commit s (storeResult (Instr.add a b dst).word (fun x y => x + y) a b dst s)

/-- R141: Mul, "dst = a*b". -/
def execMul (a b dst : Param) (s : State) : Host.Outcome State Fault Refusal :=
  commit s (storeResult (Instr.mul a b dst).word (fun x y => x * y) a b dst s)

end Sys2Proof.Machine
end

