-- ==== Sys2Proof/Machine/Flags.lean ====
section
/-!
DEFINITION. Truth values. CORE has no flags, condition codes or predicate registers (spec/10_state.md R26): a comparison
writes the integer 1 or 0 to memory, and a jump tests whether a value is zero. These two are all there is to compute.
-/
namespace Sys2Proof.Machine

/-- R170, R171: the integer a comparison stores. -/
def truthValue (b : Bool) : Int := if b then 1 else 0

/-- R160, R161: a jump's condition, `c != 0`; every non-zero value, negative ones included. -/
def isNonZero (c : Word) : Bool := c.val ≠ 0

end Sys2Proof.Machine
end

