-- ==== Sys2Proof/Machine/Compare.lean ====
section
/-!
DEFINITION. LessThan and Equals (spec/44_compare.md). The comparison is of the signed integers, not by subtraction, and 1
and 0 are Words, so neither can overflow.
-/
namespace Sys2Proof.Machine

/-- R170: LessThan, "dst = (a<b)?1:0". -/
def execLessThan (a b dst : Param) (s : State) : Host.Outcome State Fault Refusal :=
  commit s (storeResult (Instr.lessThan a b dst).word (fun x y => truthValue (x < y)) a b dst s)

/-- R171: Equals, "dst = (a==b)?1:0". -/
def execEquals (a b dst : Param) (s : State) : Host.Outcome State Fault Refusal :=
  commit s (storeResult (Instr.equals a b dst).word (fun x y => truthValue (x = y)) a b dst s)

end Sys2Proof.Machine
end

