-- ==== Sys2Proof/Machine/Halt.lean ====
section
/-!
DEFINITION. Halt (spec/46_halt.md).
-/
namespace Sys2Proof.Machine

/-- R185: Halt, "terminal". `pc` stays at the Halt word (decision D12). -/
def execHalt (s : State) : Host.Outcome State Fault Refusal :=
  .next ({ s with ctl := .halted }.respond .halted)

end Sys2Proof.Machine
end

