-- ==== Sys2Proof/Machine/InputOutput.lean ====
section
/-!
DEFINITION. Input and Output (spec/42_io.md). Input has two phases: inside a `resume` it suspends (R150), and inside a
`supply_input` it is executed again and completes (R151).
-/
namespace Sys2Proof.Machine

/-- The value a `supply_input` in progress brings to an awaiting machine (R151). -/
def suppliedValue (s : State) : Option Word :=
  match s.ctl, s.calls with
  | .awaitingInput, .supplyInput v :: _ => some v
  | _, _ => none

/-- R150: the first phase. The address is computed to complete the decode, not bounds-checked (decision D16) and not
kept. `mem`, `pc`, `rb` are unchanged. -/
def inputSuspends (w : Word) (dst : Param) (s : State) : Except Raised State := do
  let _ ← writeAddress w s dst
  .ok ({ s with ctl := .awaitingInput }.respond .inputRequested)

/-- R151: the completion with value `v`. -/
def inputCompletes (w v : Word) (dst : Param) (s : State) : Except Raised State := do
  let d ← writeAddress w s dst
  let t ← memWrite s d v
  let u ← advance 2 t
  .ok ({ u with ctl := .ready }.respond .ack)

/-- R150, R151: Input, "suspend for input, then dst = input". -/
def execInput (dst : Param) (s : State) : Host.Outcome State Fault Refusal :=
  match suppliedValue s with
  | none => commit s (inputSuspends (Instr.input dst).word dst s)
  | some v => commit s (inputCompletes (Instr.input dst).word v dst s)

/-- The step of Output (R152): resolve, advance, and only then respond; the value is kept nowhere in the machine. -/
def outputEmits (a : Param) (s : State) : Except Raised State := do
  let v ← readOperand s a
  let t ← advance 2 s
  .ok (t.respond (.output v))

/-- R152: Output, "suspend, emit a". -/
def execOutput (a : Param) (s : State) : Host.Outcome State Fault Refusal :=
  commit s (outputEmits a s)

end Sys2Proof.Machine
end

