-- ==== Sys2Proof/Machine/Jumps.lean ====
section
/-!
DEFINITION. JumpIfTrue and JumpIfFalse (spec/43_jumps.md).
-/
namespace Sys2Proof.Machine

/-- The step of a jump (R160 to R163): both parameters are resolved, `cond` first, before the condition is tested (decision
D10); a taken jump stores any Word in `pc`, unchecked (decision D11); a jump not taken advances by 3. -/
def jumpWhen (taken : Word → Bool) (cond target : Param) (s : State) : Except Raised State := do
  let c ← readOperand s cond
  let t ← readOperand s target
  if taken c then .ok { s with pc := t } else advance 3 s

/-- R160: JumpIfTrue, "pc=target if cond≠0". -/
def execJumpIfTrue (cond target : Param) (s : State) : Host.Outcome State Fault Refusal :=
  commit s (jumpWhen isNonZero cond target s)

/-- R161: JumpIfFalse, "pc=target if cond=0". -/
def execJumpIfFalse (cond target : Param) (s : State) : Host.Outcome State Fault Refusal :=
  commit s (jumpWhen (fun c => !isNonZero c) cond target s)

end Sys2Proof.Machine
end

