-- ==== Sys2Proof/Machine/RelativeBase.lean ====
section
/-!
DEFINITION. AdjustRelativeBase (spec/45_relbase.md), the only instruction that writes `rb`.
-/
namespace Sys2Proof.Machine

/-- The step of AdjustRelativeBase (R180): the operand is read with the old base; the new base is the exact sum, checked to
be a Word. -/
def adjustBase (w : Word) (a : Param) (s : State) : Except Raised State := do
  let x ← readOperand s a
  let r ← narrow w (s.rb.val + x.val)
  advance 2 { s with rb := r }

/-- R180: AdjustRelativeBase, "relative_base += a". -/
def execAdjustRelativeBase (a : Param) (s : State) : Host.Outcome State Fault Refusal :=
  commit s (adjustBase (Instr.adjustRelativeBase a).word a s)

end Sys2Proof.Machine
end

