-- ==== Sys2Proof/Machine/Fetch.lean ====
section
/-!
DEFINITION. Fetch, decode and parameter fetch (spec/40_execution_cycle.md R111 to R113), and placing a host's word where
the next fetch reads it.
-/
namespace Sys2Proof.Machine

/-- R111, R112: read the instruction word at `pc` and decode it. A decode fault records the word. -/
def fetchHeader (s : State) : Except Raised Header := do
  let w ← memRead .fetch s s.pc.val
  match decodeHeader w with
  | .ok h => .ok h
  | .error e => .error ⟨causeOfDecodeError e, w.val⟩

/-- R113: raw parameter `i` of an instruction that has `n`, read at `pc + i`. A parameter that is not there is not read. -/
def fetchParam (s : State) (n i : Nat) : Except Raised Word :=
  if i ≤ n then memRead .fetch s (s.pc.val + i) else .ok .zero

/-- R111 to R113: the instruction at `pc`: fetch, decode, then all raw parameters in increasing order. -/
def fetchInstr (s : State) : Except Raised Instr := do
  let h ← fetchHeader s
  let p1 ← fetchParam s h.op.paramCount 1
  let p2 ← fetchParam s h.op.paramCount 2
  let p3 ← fetchParam s h.op.paramCount 3
  .ok (h.instr p1 p2 p3)

/-- The four cells from `pc` on: what the longest instruction at `pc` occupies (R80, R96). -/
def cellsAtPc (s : State) : List Word :=
  [s.mem.read s.pc.val.toNat, s.mem.read (s.pc.val.toNat + 1), s.mem.read (s.pc.val.toNat + 2),
    s.mem.read (s.pc.val.toNat + 3)]

/-- Write cells one after another from address `a` on. -/
def writeCells (m : Memory) (a : Nat) (cells : List Word) : Memory :=
  match cells with
  | [] => m
  | w :: ws => writeCells (m.write a w) (a + 1) ws

/-- Store cells where the next fetch begins: at `pc`, or at 0 with `pc = 0` where the four cells from `pc` are not all
valid addresses (log 15); what does not fit is left out. -/
def placeAtFetch (s : State) (cells : List Word) : State :=
  if s.validAddr s.pc.val ∧ s.validAddr (s.pc.val + 3) then
    { s with mem := writeCells s.mem s.pc.val.toNat cells }
  else
    { s with mem := writeCells s.mem 0 (cells.take s.cfg.memCapacity), pc := .zero }

/-- Make the next step run an instruction (log 15): Fresh and Ready stay, any other run state becomes Ready, without a
fault (R38 (d)); and the transaction in progress becomes a `resume`, unless the caller's list is empty. -/
def readyToRun (s : State) : State :=
  let t : State :=
    match s.ctl with
    | .fresh => s
    | .ready => s
    | .awaitingInput => { s with ctl := .ready }
    | .halted => { s with ctl := .ready }
    | .faulted => { s with ctl := .ready, cause := .none, finfo := 0 }
  match t.calls with
  | [] => t
  | .resume :: _ => t
  | calls => { t with calls := .resume :: calls }

end Sys2Proof.Machine
end

