-- ==== Sys2Proof/Machine/Transactions.lean ====
section
/-!
DEFINITION. The transactions (spec/47_host_transactions.md): what one step does inside each. A `resume` takes as many steps
as it executes instructions (R193, R200); every other transaction takes one (log 7).
-/
namespace Sys2Proof.Machine

/-- R110, R127: one step of the machine, with `ctl = Ready`: fetch, decode, execute. -/
def runInstr (s : State) : Host.Outcome State Fault Refusal :=
  match fetchInstr s with
  | .ok i => exec i s
  | .error e => .next (s.raise e)

/-- One step inside `resume()` (R192 to R196). Fresh and Ready execute an instruction, with `ctl <- Ready`; the other run
states respond and change nothing. -/
def resume (s : State) : Host.Outcome State Fault Refusal :=
  match s.ctl with
  | .fresh => runInstr { s with ctl := .ready }
  | .ready => runInstr { s with ctl := .ready }
  | .awaitingInput => .next (s.respond .inputRequested)
  | .halted => .next (s.respond .halted)
  | .faulted => .next (s.respond (.fault s.cause s.finfo))

/-- `supply_input(v)` (R197, R198), `v` being that of the transaction in progress. Awaiting input, the Input instruction at
`pc` "is re-decoded and completed" (R151); with no Input there, which no run reaches (R38 (a)), the model stops (log 12).
Fresh, Ready and Halted are a protocol violation (decision D15); Faulted repeats its fault. -/
def supplyInput (s : State) : Host.Outcome State Fault Refusal :=
  match s.ctl with
  | .awaitingInput =>
    match fetchInstr s with
    | .ok (.input dst) => exec (.input dst) s
    | _ => .fault .noInputPending
  | .fresh => .next (s.raise ⟨.protocolViolation, 0⟩)
  | .ready => .next (s.raise ⟨.protocolViolation, 0⟩)
  | .halted => .next (s.raise ⟨.protocolViolation, 0⟩)
  | .faulted => .next (s.respond (.fault s.cause s.finfo))

/-- `load(program)` (R191): reset. A program that fits gives the reset state of R35 and `Ack`; one that does not gives the
state of R36, with memory a free value (log 8), and `Fault(LoadTooLarge, L)`, for every `L` (log 9). Nothing of the old state survives (R262) but
the capacity and the model's own fields. -/
def load (program : List Word) (s : State) : State :=
  if program.length ≤ s.cfg.memCapacity then
    { s with mem := .ofProgram program, pc := .zero, rb := .zero, ctl := .fresh, cause := .none, finfo := 0 }.respond .ack
  else
    { s with mem := .ofCells s.cfg.memCapacity (Config.failedLoadCells s.freeTick), pc := .zero, rb := .zero,
             freeTick := s.freeTick + 1 }.raise ⟨.loadTooLarge, program.length⟩

/-- The response of `peek(addr)` (R204). -/
def peekResponse (s : State) (addr : Int) : Response :=
  if s.validAddr addr then .value (s.mem.read addr.toNat) else .invalid

/-- The response of `status()` (R205). -/
def statusResponse (s : State) : Response := .status s.ctl s.pc s.rb s.cause s.finfo

/-- One step of the transaction in progress, the first of the caller's list. With none left the caller is the one of R202
with nothing to supply: it resumes a machine that is Fresh or Ready, and leaves any other alone (log 5). -/
def transact (s : State) : Host.Outcome State Fault Refusal :=
  match s.calls with
  | [] =>
    match s.ctl with
    | .fresh => resume s
    | .ready => resume s
    | .awaitingInput => .next s
    | .halted => .next s
    | .faulted => .next s
  | .load program :: _ => .next (load program s)
  | .resume :: _ => resume s
  | .supplyInput _ :: _ => supplyInput s
  | .peek addr :: _ => .next (s.respond (peekResponse s addr))
  | .status :: _ => .next (s.respond (statusResponse s))

end Sys2Proof.Machine
end

