-- ==== Sys2Proof/Machine/Step.lean ====
section
/-!
DEFINITION. One step, and placing a host's word where the next step fetches.
-/
namespace Sys2Proof.Machine

/-- One step: one instruction of a `resume`, or one whole transaction of another kind (spec/47_host_transactions.md R199). -/
def step (s : State) : Host.Outcome State Fault Refusal := transact s

/-- `s` with the host's word, laid out in cells, stored where the next step fetches (log 15). It stands for the caller's
`load` of a program that begins with that instruction (log 14). -/
def State.withFetchWord (s : State) (nbits w : Nat) : State :=
  placeAtFetch (readyToRun s) (tableCells nbits w)

end Sys2Proof.Machine
end

