-- ==== Sys2Proof/Safety.lean ====
section
/-!
DEFINITION. The terms claims use: the invariant of every state (spec/10_state.md R38), when a `resume` executes, what an
instruction may raise and where it stores, and a `resume` spread over steps (spec/47_host_transactions.md R200, R207).
-/
namespace Sys2Proof.Machine

/-- R38, with the canonical form of memory (R32, R33) and the width of `finfo` (R29). Clause (e) of R38 speaks of the
program last loaded, which is no state; its part about `pc` and `rb` stands here. -/
structure StateInv (s : State) : Prop where
  /-- the list of cells is in canonical form -/
  memCanonical : s.mem.wf
  /-- R32: no cell beyond the capacity is listed -/
  memInRange : ∀ c ∈ s.mem.cells, c.1 < s.cfg.memCapacity
  /-- R38 (a): an awaiting machine stands at an Input instruction, which decodes and whose parameter can be fetched -/
  awaitingAtInput : s.ctl = .awaitingInput → ∃ dst, fetchInstr s = .ok (.input dst)
  /-- R38 (b): a halted machine stands at a Halt word -/
  haltedAtHalt : s.ctl = .halted → s.validAddr s.pc.val ∧ s.mem.read s.pc.val.toNat = word 99
  /-- R38 (c) -/
  faultedIffCause : s.ctl = .faulted ↔ s.cause ≠ .none
  /-- R38 (d): no fault, no information (that there is no cause is (c)) -/
  infoOnlyWhenFaulted : s.ctl ≠ .faulted → s.finfo = 0
  /-- R38 (e), but for memory -/
  freshAtEntry : s.ctl = .fresh → s.pc = .zero ∧ s.rb = .zero
  /-- R29: `finfo` is a signed integer of 65 bits, whatever was recorded, but for the length of a program (log 9) -/
  infoWidth : s.cause ≠ .loadTooLarge → -18446744073709551616 ≤ s.finfo ∧ s.finfo < 18446744073709551616
  /-- R36: the length that a failed `load` recorded is beyond the capacity -/
  infoOfLoad : s.cause = .loadTooLarge → s.cfg.memCapacity < s.finfo

/-- A `resume` is in progress in a run state in which it executes an instruction (R193): the caller's list begins with one,
or is empty (log 5). -/
abbrev Running (s : State) : Prop :=
  (s.ctl = .fresh ∨ s.ctl = .ready) ∧ (s.calls.head? = none ∨ s.calls.head? = some .resume)

/-- R222: a guest fault: the program, or the capacity it runs in. -/
abbrev Cause.isGuest (c : Cause) : Prop := 1 ≤ c.code ∧ c.code < 16

/-- R222: a caller fault. -/
abbrev Cause.isCaller (c : Cause) : Prop := 16 ≤ c.code

/-- R57: the three out-of-bounds causes. -/
abbrev Cause.isBounds (c : Cause) : Prop :=
  c = .fetchOutOfBounds ∨ c = .readOutOfBounds ∨ c = .writeOutOfBounds

/-- R223, codes 6 to 8: what an instruction may raise once it is fetched and decoded. -/
def executionCauses (i : Instr) : List Cause :=
  match i with
  | .add _ _ _ => [.readOutOfBounds, .writeOutOfBounds, .arithmeticOverflow]
  | .mul _ _ _ => [.readOutOfBounds, .writeOutOfBounds, .arithmeticOverflow]
  | .input _ => [.writeOutOfBounds]
  | .output _ => [.readOutOfBounds]
  | .jumpIfTrue _ _ => [.readOutOfBounds]
  | .jumpIfFalse _ _ => [.readOutOfBounds]
  | .lessThan _ _ _ => [.readOutOfBounds, .writeOutOfBounds]
  | .equals _ _ _ => [.readOutOfBounds, .writeOutOfBounds]
  | .adjustRelativeBase _ => [.readOutOfBounds, .arithmeticOverflow]
  | .halt => []

/-- R85: the write parameter of an instruction. -/
def destination (i : Instr) : Option Param :=
  match i with
  | .add _ _ dst => some dst
  | .mul _ _ dst => some dst
  | .input dst => some dst
  | .output _ => none
  | .jumpIfTrue _ _ => none
  | .jumpIfFalse _ _ => none
  | .lessThan _ _ dst => some dst
  | .equals _ _ dst => some dst
  | .adjustRelativeBase _ => none
  | .halt => none

/-- R65 (4), R129: the next step executes the store of the instruction at `pc`, to address `a`: an Add, Mul, LessThan or Equals
inside a `resume`, or an Input being completed inside a `supply_input`. (Whether it faults is not asked.) -/
def StoresAt (s : State) (a : Nat) : Prop :=
  ∃ i dst, fetchInstr s = .ok i ∧ destination i = some dst ∧ effectiveAddress s dst = some (a : Int) ∧
    ((Running s ∧ ∀ p, i ≠ .input p) ∨
      (s.ctl = .awaitingInput ∧ ∃ v, s.calls.head? = some (.supplyInput v)))

/-- `k` steps, as the host runs them (Host.Core.run), ending at the first stop. -/
def runFor (k : Nat) (s : State) : Host.Outcome State Fault Refusal :=
  match k with
  | 0 => .next s
  | k + 1 =>
    match step s with
    | .next t => runFor k t
    | .fault r => .fault r
    | .refused r => .refused r

/-- R200: the transaction in progress responds `r` after some number of steps, at least one, and leaves the state `t`. -/
def Responds (s : State) (r : Response) (t : State) : Prop :=
  ∃ k, runFor (k + 1) s = .next t ∧ t.responses = r :: s.responses ∧
    ∀ j, j ≤ k → ∃ u, runFor j s = .next u ∧ u.responses = s.responses

/-- R200: a hang: the transaction in progress never responds. -/
def Hangs (s : State) : Prop := ∀ k, ∃ u, runFor k s = .next u ∧ u.responses = s.responses

/-- R207, R232: a run has ended normally. A Faulted machine has not. -/
abbrev EndedNormally (s : State) : Prop := s.ctl = .halted ∧ s.cause = .none

end Sys2Proof.Machine
end

