-- ==== Sys2Proof/Certificates/Slice0/Obligations.lean ====
section
/-!
DEFINITION. The statements for the provers. Each docstring names the rule of spec/ it formalises and, where the statement
rests on a choice, whose choice it is: the spec's own decisions (D1 to D21 of spec/92_eei_decisions.md) or the model's
(a log entry).
-/
open Sys2Proof Sys2Proof.Machine

/-! Encoding and decoding (spec/30_encoding.md, spec/40_execution_cycle.md R112). -/

/-- spec/95_test_vectors.md 2.1: words written out there, one for each instruction, decode to the instruction written
beside them. -/
def Obligations.SpecWordsDecode : Prop :=
  decode [word 21001, word 5, word 3, word 2] =
      .ok (.add ⟨.position, word 5⟩ ⟨.immediate, word 3⟩ ⟨.relative, word 2⟩, []) ∧
    decode [word 1002, word 4, word 3, word 4] =
      .ok (.mul ⟨.position, word 4⟩ ⟨.immediate, word 3⟩ ⟨.position, word 4⟩, []) ∧
    decode [word 203, word (-3)] = .ok (.input ⟨.relative, word (-3)⟩, []) ∧
    decode [word 104, word 42] = .ok (.output ⟨.immediate, word 42⟩, []) ∧
    decode [word 2105, word 1, word (-1)] = .ok (.jumpIfTrue ⟨.immediate, word 1⟩ ⟨.relative, word (-1)⟩, []) ∧
    decode [word 1006, word 24, word 20] = .ok (.jumpIfFalse ⟨.position, word 24⟩ ⟨.immediate, word 20⟩, []) ∧
    decode [word 107, word 0, word 23, word 24] =
      .ok (.lessThan ⟨.immediate, word 0⟩ ⟨.position, word 23⟩ ⟨.position, word 24⟩, []) ∧
    decode [word 1008, word 100, word 16, word 101] =
      .ok (.equals ⟨.position, word 100⟩ ⟨.immediate, word 16⟩ ⟨.position, word 101⟩, []) ∧
    decode [word 209, word 0] = .ok (.adjustRelativeBase ⟨.relative, word 0⟩, []) ∧
    decode [word 99] = .ok (.halt, [])

/-- R80, R81, R84: decoding the cells of a well-formed instruction gives it back, with every mode and every raw parameter,
and leaves the cells after it. -/
def Obligations.DecodeOfEncode : Prop :=
  ∀ (i : Instr) (rest : List Word), i.wellFormed = true → decode (encode i ++ rest) = .ok (i, rest)

/-- R95, R97: the other way round. Whatever decodes is well formed and is the encoding of what it decodes to: no digit of
an instruction word is ignored. -/
def Obligations.EncodeOfDecode : Prop :=
  ∀ (cells rest : List Word) (i : Instr), decode cells = .ok (i, rest) →
    i.wellFormed = true ∧ encode i ++ rest = cells

/-- R91: the words of an ill-formed instruction, one whose write parameter is Immediate, are rejected as
ImmediateWriteTarget. -/
def Obligations.ImmediateWriteTargetIsRejected : Prop :=
  ∀ (i : Instr) (rest : List Word), i.wellFormed = false →
    decode (encode i ++ rest) = .error (.illegal .immediateWriteTarget)

/-- The table of R97, written out. -/
def Sys2Proof.legalWords (op : Opcode) : List Int :=
  match op with
  | .add => [1, 101, 201, 1001, 1101, 1201, 2001, 2101, 2201, 20001, 20101, 20201, 21001, 21101, 21201, 22001, 22101, 22201]
  | .mul => [2, 102, 202, 1002, 1102, 1202, 2002, 2102, 2202, 20002, 20102, 20202, 21002, 21102, 21202, 22002, 22102, 22202]
  | .input => [3, 203]
  | .output => [4, 104, 204]
  | .jumpIfTrue => [5, 105, 205, 1005, 1105, 1205, 2005, 2105, 2205]
  | .jumpIfFalse => [6, 106, 206, 1006, 1106, 1206, 2006, 2106, 2206]
  | .lessThan =>
    [7, 107, 207, 1007, 1107, 1207, 2007, 2107, 2207, 20007, 20107, 20207, 21007, 21107, 21207, 22007, 22107, 22207]
  | .equals =>
    [8, 108, 208, 1008, 1108, 1208, 2008, 2108, 2208, 20008, 20108, 20208, 21008, 21108, 21208, 22008, 22108, 22208]
  | .adjustRelativeBase => [9, 109, 209]
  | .halt => [99]

/-- R97 (which the spec marks as derived by itself): the words that decode are the 99 of the table, each to the opcode of
its row. -/
def Obligations.LegalWordsAreTheTable : Prop :=
  ∀ (w : Word) (op : Opcode), (∃ h, decodeHeader w = .ok h ∧ h.op = op) ↔ w.val ∈ legalWords op

/-- R112, the order of whose checks is the spec's decision D9 (with D6, D7, D8): the six checks, each where the ones before
it pass, and the header where all pass. Parameter `k` has the mode digit of weight `10^(k+1)` (R81, R83, D21). -/
def Obligations.DecodeChecksInOrder : Prop :=
  ∀ w : Word,
    (w.val < 0 → decodeHeader w = .error .illegalOpcode) ∧
    ∀ n : Nat, w.val = n →
      (n % 100 ∉ [1, 2, 3, 4, 5, 6, 7, 8, 9, 99] → decodeHeader w = .error .illegalOpcode) ∧
      ∀ op : Opcode, n % 100 = op.number →
        (100000 ≤ n → decodeHeader w = .error .reservedEncoding) ∧
        (n < 100000 → (∃ k, 1 ≤ k ∧ k ≤ op.paramCount ∧ 2 < digit n (k + 1)) →
          decodeHeader w = .error .illegalMode) ∧
        (n < 100000 → (∀ k, 1 ≤ k → k ≤ op.paramCount → digit n (k + 1) ≤ 2) →
          ((∃ k, op.paramCount < k ∧ k ≤ 3 ∧ digit n (k + 1) ≠ 0) → decodeHeader w = .error .reservedEncoding) ∧
          ((∀ k, op.paramCount < k → k ≤ 3 → digit n (k + 1) = 0) →
            ((∃ k, op.writeParam = some k ∧ digit n (k + 1) = 1) → decodeHeader w = .error .immediateWriteTarget) ∧
            ((∀ k, op.writeParam = some k → digit n (k + 1) ≠ 1) →
              ∃ h, decodeHeader w = .ok h ∧ h.op = op ∧ h.m1.digit = digit n 2 ∧ h.m2.digit = digit n 3 ∧
                h.m3.digit = digit n 4)))

/-! A step: fetch, decode, run (spec/40_execution_cycle.md R110 to R113). -/

/-- R111 to R113, R127, R151: where the cells from `pc` on decode to an instruction, all of whose cells are valid addresses,
a step inside `resume` is that instruction's meaning with `ctl = Ready` (R193), and a step inside `supply_input` of an
awaiting machine is that of its Input. -/
def Obligations.StepRunsDecodedInstruction : Prop :=
  ∀ (s : State) (i : Instr) (rest : List Word),
    s.validAddr s.pc.val → s.validAddr (s.pc.val + i.length - 1) → decode (cellsAtPc s) = .ok (i, rest) →
    (Running s → step s = exec i { s with ctl := .ready }) ∧
    (∀ (dst : Param) (v : Word), i = .input dst → s.ctl = .awaitingInput → s.calls.head? = some (.supplyInput v) →
      step s = exec i s)

/-- R111, R24, R163 (the last two by the spec's decision D11): a step at a `pc` that is no valid address, a jump's target
among others, faults with `pc` as it stands. -/
def Obligations.FetchOutOfBoundsFaults : Prop :=
  ∀ s : State, Running s → ¬ s.validAddr s.pc.val → step s = .next (s.raise ⟨.fetchOutOfBounds, s.pc.val⟩)

/-- R89: "An instruction word `w >= 0` whose `op = w mod 100` is not one of 1, 2, 3, 4, 5, 6, 7, 8, 9, 99 raises
`IllegalOpcode(w)`", a zero cell among them. -/
def Obligations.UnknownOpcodeFaults : Prop :=
  ∀ (s : State) (n : Nat), Running s → s.validAddr s.pc.val → (s.mem.read s.pc.val.toNat).val = n →
    n % 100 ∉ [1, 2, 3, 4, 5, 6, 7, 8, 9, 99] → step s = .next (s.raise ⟨.illegalOpcode, n⟩)

/-- R112, R221, R230: a word that does not decode takes fault entry, and `finfo` records the word. -/
def Obligations.DecodeFaultEntersFaulted : Prop :=
  ∀ (s : State) (e : DecodeError), Running s → s.validAddr s.pc.val →
    decodeHeader (s.mem.read s.pc.val.toNat) = .error e →
    step s = .next { s with ctl := .faulted, cause := causeOfDecodeError e, finfo := (s.mem.read s.pc.val.toNat).val,
                            calls := s.calls.tail,
                            responses := .fault (causeOfDecodeError e) (s.mem.read s.pc.val.toNat).val :: s.responses }

/-- R113 (whose order is the spec's decision D9): after a successful decode, the first raw parameter that lies outside
memory faults with its address, whatever the operands. -/
def Obligations.ParameterFetchFaults : Prop :=
  ∀ (s : State) (h : Header) (k : Nat), Running s → s.validAddr s.pc.val →
    decodeHeader (s.mem.read s.pc.val.toNat) = .ok h → 1 ≤ k → k ≤ h.op.paramCount →
    s.validAddr (s.pc.val + k - 1) → ¬ s.validAddr (s.pc.val + k) →
    step s = .next (s.raise ⟨.fetchOutOfBounds, s.pc.val + k⟩)

/-! Memory (spec/20_memory.md). -/

/-- R55: "If `0 <= addr < MEM_CAPACITY` it returns `mem[addr]` and changes nothing. Otherwise it raises the out-of-bounds
fault of its access kind (rule R57). A cell never written since reset and not covered by the program reads as 0": in the state
after the load, and after any number of further steps none of which but the load itself stores to the cell. (Which cause an
access kind has is AccessKindsHaveTheirFaults.) -/
def Obligations.MemReadRule : Prop :=
  (∀ (k : Access) (s : State) (a : Int),
    (0 ≤ a ∧ a < s.cfg.memCapacity → memRead k s a = .ok (s.mem.read a.toNat)) ∧
    (a < 0 ∨ s.cfg.memCapacity ≤ a → memRead k s a = .error ⟨k.cause, a⟩)) ∧
  ∀ (s t : State) (program : List Word) (rest : List Call) (k a : Nat),
    s.calls = .load program :: rest → program.length ≤ s.cfg.memCapacity → (∀ p, .load p ∉ rest) →
    program.length ≤ a → a < s.cfg.memCapacity → runFor (k + 1) s = .next t →
    (∀ j u, 1 ≤ j → j ≤ k → runFor j s = .next u → ¬ StoresAt u a) →
    ∀ kind : Access, memRead kind t a = .ok (word 0)

/-- R56: "If `0 <= addr < MEM_CAPACITY` it sets `mem[addr] <- v` and changes no other cell. Otherwise it raises
`WriteOutOfBounds(addr)` and writes nothing." Nothing else of the state changes. -/
def Obligations.MemWriteRule : Prop :=
  ∀ (s : State) (a : Int) (v : Word),
    (0 ≤ a ∧ a < s.cfg.memCapacity → ∃ m : Memory, memWrite s a v = .ok { s with mem := m } ∧ m.read a.toNat = v ∧
      ∀ b : Nat, (b : Int) ≠ a → m.read b = s.mem.read b) ∧
    (a < 0 ∨ s.cfg.memCapacity ≤ a → memWrite s a v = .error ⟨.writeOutOfBounds, a⟩)

/-- R33: memory is what its reads give. Two canonical memories that read alike everywhere are equal data (log 2). -/
def Obligations.EqualReadsEqualMemory : Prop :=
  ∀ m n : Memory, m.wf → n.wf → (∀ a, m.read a = n.read a) → m = n

/-! The addressing-mode resolver (spec/40_execution_cycle.md R118, R119). -/

/-- R118: `ReadOperand(m, p)` by mode. That `rb + p` is exact, so that a sum outside memory always faults, is the spec's
decision D4. -/
def Obligations.ReadOperandByMode : Prop :=
  ∀ (s : State) (p : Word),
    readOperand s ⟨.immediate, p⟩ = .ok p ∧
    (s.validAddr p.val → readOperand s ⟨.position, p⟩ = .ok (s.mem.read p.val.toNat)) ∧
    (¬ s.validAddr p.val → readOperand s ⟨.position, p⟩ = .error ⟨.readOutOfBounds, p.val⟩) ∧
    (s.validAddr (s.rb.val + p.val) → readOperand s ⟨.relative, p⟩ = .ok (s.mem.read (s.rb.val + p.val).toNat)) ∧
    (¬ s.validAddr (s.rb.val + p.val) →
      readOperand s ⟨.relative, p⟩ = .error ⟨.readOutOfBounds, s.rb.val + p.val⟩)

/-- R119: `WriteAddress(m, p)`: the raw parameter, or the exact sum `rb + p`; it "cannot fault; it does not check bounds";
"The result is an integer in `-2^64 .. 2^64 - 2`, not necessarily a Word". -/
def Obligations.WriteAddressByMode : Prop :=
  ∀ (w : Word) (s : State) (p : Word),
    writeAddress w s ⟨.position, p⟩ = .ok p.val ∧
    writeAddress w s ⟨.relative, p⟩ = .ok (s.rb.val + p.val) ∧
    ∀ (q : Param) (d : Int), writeAddress w s q = .ok d → -2 ^ 64 ≤ d ∧ d ≤ 2 ^ 64 - 2

/-! What each instruction does where no check fails. -/

/-- R140, R141, R142: Add and Mul complete with the exact sum and product, where it is a Word, in `mem[dst]`, and `pc`
advanced by 4. Nothing else changes. -/
def Obligations.ArithmeticStoresExactResult : Prop :=
  ∀ (s : State) (a b dst : Param) (x y : Word) (d : Int),
    readOperand s a = .ok x → readOperand s b = .ok y → effectiveAddress s dst = some d →
    s.validAddr d → s.validAddr s.pc.val →
    (InWord (x.val + y.val) → ∃ r p : Word, r.val = x.val + y.val ∧ p.val = s.pc.val + 4 ∧
      exec (.add a b dst) s = .next { s with mem := s.mem.write d.toNat r, pc := p }) ∧
    (InWord (x.val * y.val) → ∃ r p : Word, r.val = x.val * y.val ∧ p.val = s.pc.val + 4 ∧
      exec (.mul a b dst) s = .next { s with mem := s.mem.write d.toNat r, pc := p })

/-- R172 (with R170 and R171): "for all `a,b`, LessThan yields 1 iff `a<b` else 0; Equals yields 1 iff `a==b` else 0", of the
signed integers; "For every `a`, `b` exactly one of `LessThan(a,b)`, `Equals(a,b)`, `LessThan(b,a)` yields 1". -/
def Obligations.ComparisonsStoreTruth : Prop :=
  ∀ (s : State) (a b dst : Param) (x y : Word) (d : Int),
    readOperand s a = .ok x → readOperand s b = .ok y → effectiveAddress s dst = some d →
    s.validAddr d → s.validAddr s.pc.val →
    ∃ (lt eq gt p : Word), p.val = s.pc.val + 4 ∧
      exec (.lessThan a b dst) s = .next { s with mem := s.mem.write d.toNat lt, pc := p } ∧
      exec (.equals a b dst) s = .next { s with mem := s.mem.write d.toNat eq, pc := p } ∧
      exec (.lessThan b a dst) s = .next { s with mem := s.mem.write d.toNat gt, pc := p } ∧
      (x.val < y.val → lt = word 1 ∧ eq = word 0 ∧ gt = word 0) ∧
      (x.val = y.val → lt = word 0 ∧ eq = word 1 ∧ gt = word 0) ∧
      (y.val < x.val → lt = word 0 ∧ eq = word 0 ∧ gt = word 1)

/-- R150: Input, first phase: `ctl <- AwaitingInput`, the response is `InputRequested`, and `mem`, `pc`, `rb` are unchanged,
wherever the destination lies (that its bounds are not checked here is the spec's decision D16). -/
def Obligations.InputSuspends : Prop :=
  ∀ (s : State) (dst : Param), dst.writable = true → s.ctl ≠ .awaitingInput →
    exec (.input dst) s = .next { s with ctl := .awaitingInput, calls := s.calls.tail,
                                         responses := .inputRequested :: s.responses }

/-- R151: Input, completion inside `supply_input(v)`: `mem[d] <- v`, `pc` advanced by 2, `ctl = Ready`, the response is `Ack`;
or, where `d` is no valid address, `WriteOutOfBounds(d)`. -/
def Obligations.SuppliedInputCompletes : Prop :=
  ∀ (s : State) (dst : Param) (v : Word) (d : Int) (rest : List Call),
    s.ctl = .awaitingInput → s.calls = .supplyInput v :: rest → effectiveAddress s dst = some d →
    (s.validAddr d → s.validAddr s.pc.val → ∃ p : Word, p.val = s.pc.val + 2 ∧
      exec (.input dst) s = .next { s with mem := s.mem.write d.toNat v, pc := p, ctl := .ready, calls := rest,
                                           responses := .ack :: s.responses }) ∧
    (¬ s.validAddr d → exec (.input dst) s = .next (s.raise ⟨.writeOutOfBounds, d⟩))

/-- R152: Output advances `pc` by 2 and responds with its operand's value; nothing else of the machine changes. -/
def Obligations.OutputEmitsValue : Prop :=
  ∀ (s : State) (a : Param) (v : Word), readOperand s a = .ok v → s.validAddr s.pc.val →
    ∃ p : Word, p.val = s.pc.val + 2 ∧
      exec (.output a) s = .next { s with pc := p, calls := s.calls.tail, responses := .output v :: s.responses }

/-- R160, R161, R163: JumpIfTrue goes to its target's value exactly where the condition is not 0, JumpIfFalse exactly where it
is 0, any Word being a target (the spec's decision D11); otherwise `pc` advances by 3. Nothing else changes. -/
def Obligations.JumpsRedirect : Prop :=
  ∀ (s : State) (cond target : Param) (c t : Word),
    readOperand s cond = .ok c → readOperand s target = .ok t →
    (c.val ≠ 0 → exec (.jumpIfTrue cond target) s = .next { s with pc := t }) ∧
    (c.val = 0 → exec (.jumpIfFalse cond target) s = .next { s with pc := t }) ∧
    (s.validAddr s.pc.val → ∃ p : Word, p.val = s.pc.val + 3 ∧
      (c.val = 0 → exec (.jumpIfTrue cond target) s = .next { s with pc := p }) ∧
      (c.val ≠ 0 → exec (.jumpIfFalse cond target) s = .next { s with pc := p }))

/-- R180: AdjustRelativeBase adds its operand, read with the old base, to `rb`, where the sum is a Word, and advances `pc` by
2. Nothing else changes. -/
def Obligations.AdjustAddsToBase : Prop :=
  ∀ (s : State) (a : Param) (x : Word), readOperand s a = .ok x → InWord (s.rb.val + x.val) → s.validAddr s.pc.val →
    ∃ r p : Word, r.val = s.rb.val + x.val ∧ p.val = s.pc.val + 2 ∧
      exec (.adjustRelativeBase a) s = .next { s with rb := r, pc := p }

/-- R185: Halt sets `ctl` and responds, in every state; that `pc` stays is the spec's decision D12. -/
def Obligations.HaltStops : Prop :=
  ∀ s : State, exec .halt s = .next { s with ctl := .halted, calls := s.calls.tail,
                                             responses := .halted :: s.responses }

/-! Where an instruction faults (spec/40_execution_cycle.md R126, spec/60_exceptions.md). -/

/-- R121 (the spec's decision D2): a sum, product or new base that is no Word raises `ArithmeticOverflow` with the
instruction's own word, even where the destination is no valid address (R126). -/
def Obligations.OverflowFaults : Prop :=
  (∀ (s : State) (a b dst : Param) (x y : Word), readOperand s a = .ok x → readOperand s b = .ok y → dst.writable = true →
    (¬ InWord (x.val + y.val) →
      exec (.add a b dst) s = .next (s.raise ⟨.arithmeticOverflow, (Instr.add a b dst).word.val⟩)) ∧
    (¬ InWord (x.val * y.val) →
      exec (.mul a b dst) s = .next (s.raise ⟨.arithmeticOverflow, (Instr.mul a b dst).word.val⟩))) ∧
  (∀ (s : State) (a : Param) (x : Word), readOperand s a = .ok x → ¬ InWord (s.rb.val + x.val) →
    exec (.adjustRelativeBase a) s = .next (s.raise ⟨.arithmeticOverflow, (Instr.adjustRelativeBase a).word.val⟩))

/-- R120, R126 (4), R162 (the spec's decisions D9, D10): the first read parameter that faults decides, whatever the
instruction would do with the value: a jump not taken included. -/
def Obligations.OperandFaultsInOrder : Prop :=
  ∀ (s : State) (a b : Param) (e : Raised),
    (readOperand s a = .error e ∨ ∃ x, readOperand s a = .ok x ∧ readOperand s b = .error e) →
    (∀ dst : Param, exec (.add a b dst) s = .next (s.raise e) ∧ exec (.mul a b dst) s = .next (s.raise e) ∧
      exec (.lessThan a b dst) s = .next (s.raise e) ∧ exec (.equals a b dst) s = .next (s.raise e)) ∧
    exec (.jumpIfTrue a b) s = .next (s.raise e) ∧ exec (.jumpIfFalse a b) s = .next (s.raise e) ∧
    (readOperand s a = .error e →
      exec (.output a) s = .next (s.raise e) ∧ exec (.adjustRelativeBase a) s = .next (s.raise e))

/-- R56, R126 (6): a destination outside memory faults once everything before it has passed. -/
def Obligations.DestinationFaultIsLast : Prop :=
  ∀ (s : State) (a b dst : Param) (x y : Word) (d : Int),
    readOperand s a = .ok x → readOperand s b = .ok y → effectiveAddress s dst = some d → ¬ s.validAddr d →
    (InWord (x.val + y.val) → exec (.add a b dst) s = .next (s.raise ⟨.writeOutOfBounds, d⟩)) ∧
    (InWord (x.val * y.val) → exec (.mul a b dst) s = .next (s.raise ⟨.writeOutOfBounds, d⟩)) ∧
    exec (.lessThan a b dst) s = .next (s.raise ⟨.writeOutOfBounds, d⟩) ∧
    exec (.equals a b dst) s = .next (s.raise ⟨.writeOutOfBounds, d⟩)

/-- R223 (which the spec marks as derived by itself): after a fetch and a decode, an instruction raises only the causes of its
row; so a comparison never overflows, and an Input raises none before it is completed. -/
def Obligations.FaultCausesPerInstruction : Prop :=
  ∀ (i : Instr) (s t : State), i.wellFormed = true → s.validAddr s.pc.val → s.ctl ≠ .faulted → exec i s = .next t →
    t.ctl = .faulted →
    t.cause ∈ executionCauses i ∧ ((∃ dst, i = .input dst) → s.ctl = .awaitingInput)

/-! Frames. -/

/-- R125, R129: where Add, Mul, LessThan or Equals, or an Input being completed, does not fault, every register but `pc` is
unchanged (but for the run state of an Input), and every cell of memory but the destination's reads as before. -/
def Obligations.StoringFrame : Prop :=
  ∀ (i : Instr) (dst : Param) (s t : State), destination i = some dst → exec i s = .next t → t.ctl ≠ .faulted →
    (∀ d : Int, effectiveAddress s dst = some d → ∀ a : Nat, (a : Int) ≠ d → t.mem.read a = s.mem.read a) ∧
    t.rb = s.rb ∧ t.cause = s.cause ∧ t.finfo = s.finfo ∧ t.cfg = s.cfg ∧ t.freeTick = s.freeTick ∧
    ((∀ p, i ≠ .input p) → t.ctl = s.ctl ∧ t.calls = s.calls ∧ t.responses = s.responses)

/-- R125, R129: where Output, a jump, AdjustRelativeBase or Halt does not fault, and in Input's first phase, no cell of memory
changes; `rb` changes only by AdjustRelativeBase, `ctl` only by Halt and Input, `pc` not by Halt or Input, and the caller
is answered only by Output, Halt and Input. -/
def Obligations.NonStoringFrame : Prop :=
  ∀ (i : Instr) (s t : State), exec i s = .next t → t.ctl ≠ .faulted →
    (destination i = none ∨ ((∃ dst, i = .input dst) ∧ s.ctl ≠ .awaitingInput)) →
    (∀ a : Nat, t.mem.read a = s.mem.read a) ∧ t.cause = s.cause ∧ t.finfo = s.finfo ∧ t.cfg = s.cfg ∧
    t.freeTick = s.freeTick ∧
    ((∀ a, i ≠ .adjustRelativeBase a) → t.rb = s.rb) ∧
    (i ≠ .halt → (∀ dst, i ≠ .input dst) → t.ctl = s.ctl) ∧
    (i = .halt ∨ (∃ dst, i = .input dst) → t.pc = s.pc) ∧
    (i ≠ .halt → (∀ dst, i ≠ .input dst) → (∀ a, i ≠ .output a) → t.calls = s.calls ∧ t.responses = s.responses)

/-- R12, R125, R230, R231, for every step but a failed `load` (R36): a step that enters Faulted is fault entry and nothing
else. `mem`, `pc` and `rb` are those the step began with. -/
def Obligations.FaultsArePrecise : Prop :=
  ∀ s t : State, step s = .next t → s.ctl ≠ .faulted → t.ctl = .faulted → (∀ p, s.calls.head? ≠ some (.load p)) →
    t = { s with ctl := .faulted, cause := t.cause, finfo := t.finfo, calls := s.calls.tail,
                 responses := .fault t.cause t.finfo :: s.responses }

/-- R222: the faults of the program are those a `resume`, or the completion of an Input, runs into, codes 1 to 8; the faults of
the caller are a `supply_input` out of turn and a `load` that does not fit, codes 16 and 17. -/
def Obligations.FaultClasses : Prop :=
  (∀ c : Cause, c.code < 16 ↔ c ≠ .protocolViolation ∧ c ≠ .loadTooLarge) ∧
  ∀ s t : State, StateInv s → step s = .next t → s.ctl ≠ .faulted → t.ctl = .faulted →
    (Running s → t.cause.isGuest ∧ t.cause.code ≤ 8) ∧
    (∀ v, s.calls.head? = some (.supplyInput v) →
      (s.ctl = .awaitingInput → t.cause.isGuest) ∧ (s.ctl ≠ .awaitingInput → t.cause.isCaller)) ∧
    (∀ p, s.calls.head? = some (.load p) → t.cause.isCaller)

/-! Transactions (spec/47_host_transactions.md). -/

/-- R199, the table of transitions, one transaction (or one instruction of a `resume`) a step. -/
def Obligations.TransitionTable : Prop :=
  ∀ s t : State, StateInv s → step s = .next t →
    (s.calls.head? = some .resume →
      ((s.ctl = .fresh ∨ s.ctl = .ready) →
        (t.ctl = .ready ∧ t.responses = s.responses) ∨
        (t.ctl = .ready ∧ ∃ v, t.responses = .output v :: s.responses) ∨
        (t.ctl = .awaitingInput ∧ t.responses = .inputRequested :: s.responses) ∨
        (t.ctl = .halted ∧ t.responses = .halted :: s.responses) ∨
        (t.ctl = .faulted ∧ t.responses = .fault t.cause t.finfo :: s.responses)) ∧
      (s.ctl = .awaitingInput → t = s.respond .inputRequested) ∧
      (s.ctl = .halted → t = s.respond .halted) ∧
      (s.ctl = .faulted → t = s.respond (.fault s.cause s.finfo))) ∧
    (∀ v, s.calls.head? = some (.supplyInput v) →
      ((s.ctl = .fresh ∨ s.ctl = .ready ∨ s.ctl = .halted) → t = s.raise ⟨.protocolViolation, 0⟩) ∧
      (s.ctl = .awaitingInput →
        (t.ctl = .ready ∧ t.responses = .ack :: s.responses) ∨
        ∃ d, t = s.raise ⟨.writeOutOfBounds, d⟩) ∧
      (s.ctl = .faulted → t = s.respond (.fault s.cause s.finfo))) ∧
    (∀ p, s.calls.head? = some (.load p) →
      (t.ctl = .fresh ∧ t.responses = .ack :: s.responses) ∨
      (t.ctl = .faulted ∧ t.cause = .loadTooLarge ∧ t.responses = .fault .loadTooLarge t.finfo :: s.responses)) ∧
    ((s.calls.head? = some .status ∨ ∃ a, s.calls.head? = some (.peek a)) → t.ctl = s.ctl)

/-- R194: "`resume()` with `ctl = Halted` responds `Halted` and changes no state. It executes no step and reads no memory."
It is the same whatever memory holds. -/
def Obligations.HaltedResumeIsIdempotent : Prop :=
  ∀ (s : State) (m : Memory) (rest : List Call), s.ctl = .halted → s.calls = .resume :: rest →
    step s = .next { s with calls := rest, responses := .halted :: s.responses } ∧
    step { s with mem := m } = .next { s with mem := m, calls := rest, responses := .halted :: s.responses }

/-- R195, R196 (the spec's decisions D14, D13): `resume` while awaiting input asks again, and a Faulted machine repeats the
fault it latched; neither changes any state. -/
def Obligations.SuspendedResumeChangesNothing : Prop :=
  ∀ (s : State) (rest : List Call), s.calls = .resume :: rest →
    (s.ctl = .awaitingInput →
      step s = .next { s with calls := rest, responses := .inputRequested :: s.responses }) ∧
    (s.ctl = .faulted →
      step s = .next { s with calls := rest, responses := .fault s.cause s.finfo :: s.responses })

/-- R197, R198 (the spec's decisions D15, D13): `supply_input` in Fresh, Ready or Halted is a protocol violation, code 16, a
caller's fault (R222), that keeps `mem`, `pc` and `rb`; in Faulted it repeats the first fault and discards the value. -/
def Obligations.SupplyInputOutOfTurn : Prop :=
  ∀ (s : State) (v : Word) (rest : List Call), s.calls = .supplyInput v :: rest →
    ((s.ctl = .fresh ∨ s.ctl = .ready ∨ s.ctl = .halted) →
      step s = .next { s with ctl := .faulted, cause := .protocolViolation, finfo := 0, calls := rest,
                              responses := .fault .protocolViolation 0 :: s.responses }) ∧
    (s.ctl = .faulted →
      step s = .next { s with calls := rest, responses := .fault s.cause s.finfo :: s.responses }) ∧
    Cause.protocolViolation.code = 16 ∧ Cause.protocolViolation.isCaller

/-- R35: "After a successful `load(program)`" "every piece of state has a defined value; nothing is unspecified": the values of
its table, in any state before (R191, R262). (The rows of `cause` and `finfo` are the spec's decision D13.) -/
def Obligations.LoadResetsEverything : Prop :=
  ∀ (s : State) (program : List Word) (rest : List Call), s.calls = .load program :: rest →
    program.length ≤ s.cfg.memCapacity →
    ∃ t, step s = .next t ∧
      (∀ a : Nat, a < program.length → program[a]? = some (t.mem.read a)) ∧
      (∀ a : Nat, program.length ≤ a → t.mem.read a = word 0) ∧
      t.pc = word 0 ∧ t.rb = word 0 ∧ t.ctl = .fresh ∧ t.ctl.code = 0 ∧ t.cause = .none ∧ t.cause.code = 0 ∧
      t.finfo = 0 ∧ t.cfg = s.cfg ∧ t.calls = rest ∧ t.responses = .ack :: s.responses

/-- R36, R191 (the spec's decision D18): a program longer than memory gives `Fault(LoadTooLarge, L)`, `pc = 0`, `rb = 0`. Of
memory nothing is said but its canonical form and its capacity: it is a free value (log 8). `finfo` is the length, whatever it
is (log 9). -/
def Obligations.LoadTooLargeFaults : Prop :=
  ∀ (s : State) (program : List Word) (rest : List Call), s.calls = .load program :: rest →
    s.cfg.memCapacity < program.length →
    ∃ t, step s = .next t ∧ t.ctl = .faulted ∧ t.cause = .loadTooLarge ∧ t.cause.code = 17 ∧
      t.pc = word 0 ∧ t.rb = word 0 ∧ t.cfg = s.cfg ∧ t.calls = rest ∧
      t.finfo = program.length ∧ t.responses = .fault .loadTooLarge program.length :: s.responses ∧
      t.mem.wf ∧ ∀ c ∈ t.mem.cells, c.1 < t.cfg.memCapacity

/-- R204, R205 (the spec's decision D17): `peek` responds `Value(mem[addr])` or `Invalid`, `status` the five registers; both in
every run state, and both change nothing of the machine. -/
def Obligations.PeekAndStatusOnlyRead : Prop :=
  (∀ (s : State) (addr : Int) (rest : List Call), s.calls = .peek addr :: rest →
    (s.validAddr addr →
      step s = .next { s with calls := rest, responses := .value (s.mem.read addr.toNat) :: s.responses }) ∧
    (¬ s.validAddr addr → step s = .next { s with calls := rest, responses := .invalid :: s.responses })) ∧
  (∀ (s : State) (rest : List Call), s.calls = .status :: rest →
    step s = .next { s with calls := rest,
                            responses := .status s.ctl s.pc s.rb s.cause s.finfo :: s.responses })

/-- R190, R193: a step either goes on with the transaction in progress and answers nothing, or ends it with one response. -/
def Obligations.OneResponseEndsOneTransaction : Prop :=
  ∀ s t : State, step s = .next t →
    (t.responses = s.responses ∧ t.calls = s.calls) ∨
    ∃ r, t.responses = r :: s.responses ∧ t.calls = s.calls.tail

/-- R30, R152: the caller is given an output value only by a step that executed an Output instruction, and the value is that of
its operand; at that moment `pc` already points past it. -/
def Obligations.OutputComesFromOutput : Prop :=
  ∀ (s t : State) (v : Word), step s = .next t → t.responses = .output v :: s.responses →
    ∃ a, fetchInstr s = .ok (.output a) ∧ readOperand s a = .ok v ∧ t.pc.val = s.pc.val + 2 ∧ t.ctl = .ready

/-- R185, R207: a step that responds `Halted` leaves a run that has ended normally: no fault, `pc` at a Halt word, and memory as
the step found it. -/
def Obligations.HaltedResponseIsNormalEnd : Prop :=
  ∀ s t : State, StateInv s → step s = .next t → t.responses = .halted :: s.responses →
    EndedNormally t ∧ t.mem = s.mem ∧ t.pc = s.pc ∧ t.rb = s.rb ∧ t.mem.read t.pc.val.toNat = word 99

/-! Invariants and rules of the whole machine. -/

/-- R35, R38: the state after reset satisfies the invariant. -/
def Obligations.ResetSatisfiesInvariant : Prop := StateInv State.reset

/-- R38 (a) to (e), R29, R33: every step, of every transaction, from every state that satisfies the invariant, keeps it: an
awaiting machine stands at an Input instruction, a halted one at a Halt word, a machine has a cause exactly when it is Faulted,
memory keeps its canonical form and capacity, and `finfo` its 65 bits or, after a failed load, a length beyond the capacity
(log 9). -/
def Obligations.StepKeepsInvariant : Prop := ∀ s t : State, StateInv s → step s = .next t → StateInv t

/-- R110, R199: no step of a machine that satisfies the invariant stops: every transaction in every state has its effect, and
CORE's own faults are states. -/
def Obligations.StepNeverStops : Prop := ∀ s : State, StateInv s → ∃ t, step s = .next t

/-- R25, R129, R37: `rb` is changed only by a step that executed AdjustRelativeBase, or by `load`. -/
def Obligations.OnlyAdjustWritesBase : Prop :=
  ∀ s t : State, step s = .next t → (∀ p, s.calls.head? ≠ some (.load p)) → t.rb ≠ s.rb →
    Running s ∧ ∃ a, fetchInstr s = .ok (.adjustRelativeBase a)

/-- R65 (4), R66, R129: outside `load`, a step changes at most one cell: the effective address of the write parameter of the
instruction at `pc`. -/
def Obligations.MemoryChangesOnlyAtDestination : Prop :=
  ∀ (s t : State) (a : Nat), step s = .next t → (∀ p, s.calls.head? ≠ some (.load p)) → t.mem.read a ≠ s.mem.read a →
    ∃ i dst, fetchInstr s = .ok i ∧ destination i = some dst ∧ effectiveAddress s dst = some (a : Int)

/-- R205, R38 (e): a machine is Fresh only until its first `resume`; as long as it is, the machine is as `load` left it. -/
def Obligations.FreshOnlyBeforeFirstResume : Prop :=
  ∀ s t : State, step s = .next t → (∀ p, s.calls.head? ≠ some (.load p)) → t.ctl = .fresh →
    s.ctl = .fresh ∧ ¬ Running s ∧ t.mem = s.mem ∧ t.pc = s.pc ∧ t.rb = s.rb

/-- R196, R198, R232 (the spec's decision D13): Faulted is absorbing. Whatever the caller does but `load`, every number of
steps is answered, `cause` and `finfo` describe the first fault, and `mem`, `pc`, `rb` stay. -/
def Obligations.FaultedAbsorbs : Prop :=
  ∀ (k : Nat) (s : State), s.ctl = .faulted → (∀ p, .load p ∉ s.calls) →
    ∃ t, runFor k s = .next t ∧
      t.ctl = .faulted ∧ t.cause = s.cause ∧ t.finfo = s.finfo ∧ t.mem = s.mem ∧ t.pc = s.pc ∧ t.rb = s.rb

/-- R186: "calling `resume` any number of times after first observing `Halted` must keep returning `Halted` without further
memory mutation"; "`mem`, `pc`, `rb` keep the values they had when Halt executed"; "Only `load` leaves `Halted` for a running
state": any other transaction is answered and leaves it Halted or, a `supply_input`, Faulted. -/
def Obligations.HaltedAbsorbs : Prop :=
  (∀ (k : Nat) (s : State), s.ctl = .halted → (∀ c ∈ s.calls, c = .resume ∨ c = .status ∨ ∃ a, c = .peek a) →
    ∃ t, runFor k s = .next t ∧ t.ctl = .halted ∧ t.mem = s.mem ∧ t.pc = s.pc ∧ t.rb = s.rb ∧
      (s.calls = List.replicate k .resume → t.responses = List.replicate k .halted ++ s.responses)) ∧
  ∀ s : State, s.ctl = .halted → (∀ p, s.calls.head? ≠ some (.load p)) →
    ∃ t, step s = .next t ∧ (t.ctl = .halted ∨ t.ctl = .faulted)

/-- spec/92_eei_decisions.md, parameters; R33: "A program that stays below address `C` in every access (fetches included)
behaves identically for every `MEM_CAPACITY >= C`": a run that meets no out-of-bounds fault is the same run under every larger
capacity. (`load` and `peek` read the capacity themselves.) -/
def Obligations.LargerCapacityIsInvisible : Prop :=
  ∀ (k : Nat) (s t : State) (c : Config), s.cfg.memCapacity ≤ c.memCapacity →
    (∀ q ∈ s.calls, (∀ p, q ≠ .load p) ∧ ∀ a, q ≠ .peek a) →
    runFor k s = .next t → ¬ t.cause.isBounds →
    runFor k { s with cfg := c } = .next { t with cfg := c }

/-- R160 (corner cases), R200: "`t = A` is a legal self-loop; if `c` is Immediate and non-zero the loop never ends": the
`resume` never responds. -/
def Obligations.SelfLoopHangs : Prop :=
  ∀ (s : State) (c : Word) (rest : List Word), Running s → s.validAddr s.pc.val → s.validAddr (s.pc.val + 2) →
    decode (cellsAtPc s) = .ok (.jumpIfTrue ⟨.immediate, c⟩ ⟨.immediate, s.pc⟩, rest) → c.val ≠ 0 → Hangs s

/-- R193, R200: a `resume` of a machine that satisfies the invariant either hangs or responds; it does not do both, and it
responds in one way only. -/
def Obligations.ResumeHangsOrRespondsOnce : Prop :=
  ∀ s : State, StateInv s → Running s →
    (Hangs s ∨ ∃ r t, Responds s r t) ∧
    (Hangs s → ∀ r t, ¬ Responds s r t) ∧
    ∀ r t r' t', Responds s r t → Responds s r' t' → r = r' ∧ t = t'

/-- R63: "A write by one step is seen by the fetch" of the next: where an instruction stores at the address `pc` advances to,
the next instruction word is the value it stored. Every instruction that stores: Add, Mul, LessThan and Equals at `pc + 4`, and
an Input being completed at `pc + 2` (R151: "in which case the supplied value is the next instruction word"). -/
def Obligations.StoreSeenByNextFetch : Prop :=
  (∀ (s : State) (a b dst : Param) (x y : Word),
    readOperand s a = .ok x → readOperand s b = .ok y → effectiveAddress s dst = some (s.pc.val + 4) →
    s.validAddr s.pc.val → s.validAddr (s.pc.val + 4) →
    (InWord (x.val + y.val) → ∃ t w, exec (.add a b dst) s = .next t ∧ t.pc.val = s.pc.val + 4 ∧
      memRead .fetch t t.pc.val = .ok w ∧ w.val = x.val + y.val) ∧
    (InWord (x.val * y.val) → ∃ t w, exec (.mul a b dst) s = .next t ∧ t.pc.val = s.pc.val + 4 ∧
      memRead .fetch t t.pc.val = .ok w ∧ w.val = x.val * y.val) ∧
    (∃ t, exec (.lessThan a b dst) s = .next t ∧ t.pc.val = s.pc.val + 4 ∧
      memRead .fetch t t.pc.val = .ok (if x.val < y.val then word 1 else word 0)) ∧
    (∃ t, exec (.equals a b dst) s = .next t ∧ t.pc.val = s.pc.val + 4 ∧
      memRead .fetch t t.pc.val = .ok (if x.val = y.val then word 1 else word 0))) ∧
  (∀ (s : State) (dst : Param) (v : Word) (rest : List Call),
    s.ctl = .awaitingInput → s.calls = .supplyInput v :: rest → effectiveAddress s dst = some (s.pc.val + 2) →
    s.validAddr s.pc.val → s.validAddr (s.pc.val + 2) →
    ∃ t, exec (.input dst) s = .next t ∧ t.pc.val = s.pc.val + 2 ∧ memRead .fetch t t.pc.val = .ok v)

/-- spec/95_test_vectors.md S4: "for any instruction whose parameters are all in Position mode, rewriting each Position-mode
parameter `p` as Immediate-mode with the literal value `memory[p]` (for read operands) must produce the same result", wherever
the instruction does not fault (the fault of an overflow names the instruction word, which differs). -/
def Obligations.PositionReadsAsImmediate : Prop :=
  ∀ (s t : State) (p q : Word) (dst : Param), s.validAddr p.val → s.validAddr q.val → t.ctl ≠ .faulted →
    let a : Param := ⟨.position, p⟩
    let b : Param := ⟨.position, q⟩
    let a' : Param := ⟨.immediate, s.mem.read p.val.toNat⟩
    let b' : Param := ⟨.immediate, s.mem.read q.val.toNat⟩
    (exec (.add a b dst) s = .next t ↔ exec (.add a' b' dst) s = .next t) ∧
    (exec (.mul a b dst) s = .next t ↔ exec (.mul a' b' dst) s = .next t) ∧
    (exec (.lessThan a b dst) s = .next t ↔ exec (.lessThan a' b' dst) s = .next t) ∧
    (exec (.equals a b dst) s = .next t ↔ exec (.equals a' b' dst) s = .next t) ∧
    (exec (.jumpIfTrue a b) s = .next t ↔ exec (.jumpIfTrue a' b') s = .next t) ∧
    (exec (.jumpIfFalse a b) s = .next t ↔ exec (.jumpIfFalse a' b') s = .next t) ∧
    (exec (.output a) s = .next t ↔ exec (.output a') s = .next t) ∧
    (exec (.adjustRelativeBase a) s = .next t ↔ exec (.adjustRelativeBase a') s = .next t)

/-- R181: "`rb` influences nothing but the effective address of Relative-mode parameters"; "Position and Immediate parameters
ignore it": an instruction with no Relative parameter, other than AdjustRelativeBase, does the same under every base. -/
def Obligations.BaseMattersOnlyToRelative : Prop :=
  ∀ (i : Instr) (s t : State) (r : Word),
    i.header.m1 ≠ .relative → i.header.m2 ≠ .relative → i.header.m3 ≠ .relative →
    (∀ a, i ≠ .adjustRelativeBase a) → exec i s = .next t → exec i { s with rb := r } = .next { t with rb := r }

/-- R57 (the split into three causes, and a negative address being out of bounds, are the spec's decisions D4 and D13; the codes,
R221, are D13): each kind of access to an address outside memory raises its own cause, with the address. -/
def Obligations.AccessKindsHaveTheirFaults : Prop :=
  ∀ (s : State) (a : Int) (v : Word), (a < 0 ∨ s.cfg.memCapacity ≤ a) →
    memRead .fetch s a = .error ⟨.fetchOutOfBounds, a⟩ ∧ memRead .read s a = .error ⟨.readOutOfBounds, a⟩ ∧
    memWrite s a v = .error ⟨.writeOutOfBounds, a⟩ ∧
    Cause.fetchOutOfBounds.code = 5 ∧ Cause.readOutOfBounds.code = 6 ∧ Cause.writeOutOfBounds.code = 7
end

