-- ==== Sys2Proof/Laws/Decode.lean ====
section
/-!
SUPPORT. What the decoder's tables and a successful decode say.
-/
namespace Sys2Proof

theorem Opcode.ofNumber?_eq_some (n : Nat) (op : Opcode) : Opcode.ofNumber? n = some op ↔ n = op.number := by
  constructor
  · intro h
    unfold Opcode.ofNumber? at h
    split at h <;> first | (cases h; rfl) | cases h
  · rintro rfl
    cases op <;> rfl

theorem Mode.digit_ofDigit {d : Nat} (h : d ≤ 2) : (Mode.ofDigit d).digit = d := by
  match d, h with
  | 0, _ => rfl
  | 1, _ => rfl
  | 2, _ => rfl

theorem Mode.ofDigit_digit (m : Mode) : Mode.ofDigit m.digit = m := by cases m <;> rfl

/-- R112: what the checks of a successful decode have established about the word's digits. -/
theorem decodeHeader_digits {w : Word} {h : Header} (hw : decodeHeader w = .ok h) :
    ∃ n : Nat, w.val = n ∧ n % 100 = h.op.number ∧ n / 100000 = 0 ∧
      h.m1 = Mode.ofDigit (digit n 2) ∧ h.m2 = Mode.ofDigit (digit n 3) ∧ h.m3 = Mode.ofDigit (digit n 4) ∧
      (([digit n 2, digit n 3, digit n 4].take h.op.paramCount).any (2 < ·)) = false ∧
      (([digit n 2, digit n 3, digit n 4].drop h.op.paramCount).any (· ≠ 0)) = false ∧
      (h.op.writeParam.any (fun k => digit n (k + 1) = 1)) = false := by
  unfold decodeHeader at hw
  split at hw
  · cases hw
  next hneg =>
  dsimp only at hw
  split at hw
  · cases hw
  next op hop =>
  split at hw
  · cases hw
  next h3 =>
  split at hw
  · cases hw
  next h4 =>
  split at hw
  · cases hw
  next h5 =>
  split at hw
  · cases hw
  next h6 =>
  cases hw
  exact ⟨w.val.toNat, by omega, (Opcode.ofNumber?_eq_some _ _).1 hop, by simpa using h3, rfl, rfl, rfl,
    by simpa using h4, by simpa using h5, by simpa using h6⟩

/-- R94: the modes of the parameters an opcode does not have are Position in whatever decodes; R86: its write parameter is
writable. -/
theorem decodeHeader_legal {w : Word} {h : Header} (hw : decodeHeader w = .ok h) (p1 p2 p3 : Word) :
    (h.instr p1 p2 p3).header = h ∧ (h.instr p1 p2 p3).wellFormed = true := by
  obtain ⟨n, -, -, -, e1, e2, e3, h4, h5, h6⟩ := decodeHeader_digits hw
  obtain ⟨op, m1, m2, m3⟩ := h
  have c : ∀ k, digit n k = 1 ∨ (Mode.ofDigit (digit n k) = .immediate → False) := by
    intro k
    rcases hd : digit n k with _ | _ | d
    · exact .inr (by simp [Mode.ofDigit])
    · exact .inl rfl
    · exact .inr (by simp [Mode.ofDigit])
  have c2 := c 2
  have c4 := c 4
  dsimp only at e1 e2 e3 h4 h5 h6
  have z : Mode.ofDigit 0 = .position := rfl
  cases op <;>
    simp only [Header.instr, Instr.header, Instr.wellFormed, Param.writable, Opcode.paramCount, Opcode.writeParam,
      List.drop_succ_cons, List.drop_zero, List.drop_nil, List.any_cons, List.any_nil, Bool.or_false, Bool.or_eq_false_iff, Option.any_some,
      decide_eq_false_iff_not, Decidable.not_not, ne_eq] at h5 h6 ⊢ <;>
    simp_all <;> split <;> simp_all

/-- The decoder and the encoder agree on instruction words: whatever decodes is the word of its header. -/
theorem decodeHeader_word {w : Word} {h : Header} (hw : decodeHeader w = .ok h) : w = encodeHeader h := by
  obtain ⟨n, hn, h2, h3, e1, e2, e3, h4, h5, -⟩ := decodeHeader_digits hw
  have key : digit n 2 ≤ 2 ∧ digit n 3 ≤ 2 ∧ digit n 4 ≤ 2 := by
    clear e1 e2 e3 h2 h3 hn
    revert h4 h5
    cases h.op <;> simp [Opcode.paramCount] <;> omega
  apply Word.ext
  simp only [encodeHeader, Header.number, e1, e2, e3, Mode.digit_ofDigit key.1, Mode.digit_ofDigit key.2.1,
    Mode.digit_ofDigit key.2.2, ← h2, hn]
  simp only [digit]
  omega

end Sys2Proof
end

