-- ==== Sys2Proof/Laws/Memory.lean ====
section
/-!
SUPPORT. Memory: read after write (spec/20_memory.md R55, R56), and every operation keeps the canonical form and the
capacity.
-/
namespace Sys2Proof.Machine

theorem readCells_insertCell (a b : Nat) (v : Word) (cells : List (Nat × Word)) :
    readCells (insertCell a v cells) b = if a = b then v else readCells cells b := by
  induction cells with
  | nil => simp [insertCell, readCells]
  | cons c rest ih =>
    simp only [insertCell]
    split
    · simp [readCells]
    · split
      · next h =>
        simp only [readCells, ← h]
        split <;> rfl
      · next h1 h2 =>
        by_cases hc : c.1 = b
        · have : a ≠ b := by omega
          simp [readCells, hc, this]
        · simp [readCells, hc, ih]

theorem readCells_filter (a b : Nat) (cells : List (Nat × Word)) :
    readCells (cells.filter (fun c => c.1 ≠ a)) b = if a = b then .zero else readCells cells b := by
  induction cells with
  | nil => simp [readCells]
  | cons c rest ih =>
    by_cases hc : c.1 = a
    · rw [List.filter_cons_of_neg (by simpa using hc), ih]
      by_cases hab : a = b
      · simp [hab]
      · have : c.1 ≠ b := by omega
        simp [readCells, hab, this]
    · rw [List.filter_cons_of_pos (by simpa using hc)]
      by_cases hb : c.1 = b
      · have : a ≠ b := by omega
        simp [readCells, hb, this]
      · simp only [readCells, hb, if_false]
        exact ih

/-- R56, R60 (a): a read gives the value of the latest write to its address, and a write changes no other cell. -/
theorem Memory.read_write (m : Memory) (a b : Nat) (v : Word) :
    (m.write a v).read b = if a = b then v else m.read b := by
  unfold Memory.write Memory.read
  split
  · next h => simp only [readCells_filter]; rw [h]
  · exact readCells_insertCell a b v m.cells

@[simp] theorem Memory.read_write_same (m : Memory) (a : Nat) (v : Word) : (m.write a v).read a = v := by
  simp [Memory.read_write]

theorem Memory.read_write_other (m : Memory) (a b : Nat) (v : Word) (h : a ≠ b) :
    (m.write a v).read b = m.read b := by
  simp [Memory.read_write, h]

@[simp] theorem Memory.read_empty (a : Nat) : (Memory.mk []).read a = .zero := rfl

/-! The listed addresses. -/

theorem mem_insertCell (a : Nat) (v : Word) (cells : List (Nat × Word)) (c : Nat × Word) :
    c ∈ insertCell a v cells → c = (a, v) ∨ c ∈ cells := by
  induction cells with
  | nil => simp [insertCell]
  | cons d rest ih =>
    simp only [insertCell]
    split
    · simp
    · split <;> simp only [List.mem_cons]
      · rintro (h | h) <;> simp [h]
      · rintro (h | h)
        · simp [h]
        · rcases ih h with h | h <;> simp [h]

theorem Memory.mem_write (m : Memory) (a : Nat) (v : Word) (c : Nat × Word) (h : c ∈ (m.write a v).cells) :
    c = (a, v) ∨ c ∈ m.cells := by
  unfold Memory.write at h
  split at h
  · exact .inr (List.mem_of_mem_filter h)
  · exact mem_insertCell a v m.cells c h

/-- A write below the capacity lists nothing beyond it. -/
theorem Memory.write_inRange {m : Memory} {a n : Nat} {v : Word} (ha : a < n) (h : ∀ c ∈ m.cells, c.1 < n) :
    ∀ c ∈ (m.write a v).cells, c.1 < n := by
  intro c hc
  rcases m.mem_write a v c hc with rfl | hc
  · exact ha
  · exact h c hc

/-! The canonical form. -/

theorem insertCell_pairwise (a : Nat) (v : Word) (cells : List (Nat × Word))
    (h : cells.Pairwise (fun x y => x.1 < y.1)) : (insertCell a v cells).Pairwise (fun x y => x.1 < y.1) := by
  induction cells with
  | nil => simp [insertCell]
  | cons d rest ih =>
    rw [List.pairwise_cons] at h
    simp only [insertCell]
    split
    · next h1 =>
      refine List.pairwise_cons.2 ⟨?_, List.pairwise_cons.2 h⟩
      intro c hc
      rcases List.mem_cons.1 hc with rfl | hc
      · exact h1
      · exact Nat.lt_trans h1 (h.1 c hc)
    · split
      · next h2 =>
        refine List.pairwise_cons.2 ⟨?_, h.2⟩
        intro c hc
        have := h.1 c hc
        simp only; omega
      · next h1 h2 =>
        refine List.pairwise_cons.2 ⟨?_, ih h.2⟩
        intro c hc
        rcases mem_insertCell a v rest c hc with rfl | hc
        · simp only; omega
        · exact h.1 c hc

/-- A write keeps the canonical form. -/
theorem Memory.write_wf {m : Memory} (h : m.wf) (a : Nat) (v : Word) : (m.write a v).wf := by
  unfold Memory.write
  split
  · exact ⟨h.1.filter _, fun c hc => h.2 c (List.mem_of_mem_filter hc)⟩
  · next hv =>
    refine ⟨insertCell_pairwise a v m.cells h.1, fun c hc => ?_⟩
    rcases mem_insertCell a v m.cells c hc with rfl | hc
    · exact hv
    · exact h.2 c hc

theorem Memory.empty_wf : (Memory.mk []).wf := ⟨List.Pairwise.nil, fun _ h => absurd h List.not_mem_nil⟩

/-! A program's memory (R35). -/

theorem mem_programCells (program : List Word) (a : Nat) (c : Nat × Word) (h : c ∈ programCells a program) :
    a ≤ c.1 ∧ c.1 < a + program.length ∧ c.2 ≠ .zero := by
  induction program generalizing a with
  | nil => simp [programCells] at h
  | cons w ws ih =>
    simp only [programCells] at h
    split at h
    · have := ih _ h
      simp only [List.length_cons]
      exact ⟨by omega, by omega, this.2.2⟩
    · rcases List.mem_cons.1 h with rfl | h
      · simp_all
      · have := ih _ h
        simp only [List.length_cons]
        exact ⟨by omega, by omega, this.2.2⟩

theorem Memory.ofProgram_wf (program : List Word) : (Memory.ofProgram program).wf := by
  refine ⟨?_, fun c hc => (mem_programCells program 0 c hc).2.2⟩
  unfold Memory.ofProgram
  generalize 0 = a
  induction program generalizing a with
  | nil => simp [programCells]
  | cons w ws ih =>
    simp only [programCells]
    split
    · exact ih _
    · refine List.pairwise_cons.2 ⟨fun c hc => ?_, ih _⟩
      have := (mem_programCells ws (a + 1) c hc).1
      simp only; omega

theorem Memory.ofProgram_inRange (program : List Word) :
    ∀ c ∈ (Memory.ofProgram program).cells, c.1 < program.length := by
  intro c hc
  have := mem_programCells program 0 c hc
  omega

theorem readCells_programCells (program : List Word) (a b : Nat) (h : a ≤ b) :
    readCells (programCells a program) b = program.getD (b - a) .zero := by
  induction program generalizing a with
  | nil => simp [programCells, readCells]
  | cons w ws ih =>
    by_cases hab : a = b
    · subst hab
      simp only [programCells]
      split
      · next hw =>
        have hnot : ∀ c ∈ programCells (a + 1) ws, c.1 ≠ a := fun c hc => by
          have := (mem_programCells ws (a + 1) c hc).1
          omega
        have hz : readCells (programCells (a + 1) ws) a = .zero := by
          generalize programCells (a + 1) ws = l at hnot
          induction l with
          | nil => rfl
          | cons c l ihl =>
            have hc : c.1 ≠ a := hnot c (by simp)
            simp only [readCells, hc, if_false]
            exact ihl (fun d hd => hnot d (by simp [hd]))
        simp [hz, hw]
      · simp [readCells]
    · have h1 : b - a = (b - (a + 1)) + 1 := by omega
      have := ih (a + 1) (by omega)
      simp only [programCells]
      split
      · rw [this, h1]; simp
      · simp only [readCells, hab, if_false]
        rw [this, h1]; simp

/-- R35: `mem[a] = q_a` below the length of the program, 0 beyond it. -/
theorem Memory.read_ofProgram (program : List Word) (a : Nat) :
    (Memory.ofProgram program).read a = program.getD a .zero := by
  simpa [Memory.ofProgram, Memory.read] using readCells_programCells program 0 a (Nat.zero_le a)

/-! The memory of any list of cells (R36). -/

theorem Memory.ofCells_wf_inRange (n : Nat) (cells : List (Nat × Word)) :
    (Memory.ofCells n cells).wf ∧ ∀ c ∈ (Memory.ofCells n cells).cells, c.1 < n := by
  unfold Memory.ofCells
  have base : (Memory.mk []).wf ∧ ∀ c ∈ (Memory.mk []).cells, c.1 < n := ⟨Memory.empty_wf, by simp⟩
  generalize (Memory.mk []) = m at base
  induction cells generalizing m with
  | nil => exact base
  | cons d rest ih =>
    simp only [List.foldl_cons]
    split
    · next h => exact ih _ ⟨Memory.write_wf base.1 _ _, Memory.write_inRange h base.2⟩
    · exact ih _ base

theorem Memory.ofCells_wf (n : Nat) (cells : List (Nat × Word)) : (Memory.ofCells n cells).wf :=
  (Memory.ofCells_wf_inRange n cells).1

theorem Memory.ofCells_inRange (n : Nat) (cells : List (Nat × Word)) :
    ∀ c ∈ (Memory.ofCells n cells).cells, c.1 < n :=
  (Memory.ofCells_wf_inRange n cells).2

end Sys2Proof.Machine
end

