-- ==== Sys2Proof/Laws/State.lean ====
section
/-!
SUPPORT. One lemma per field for each named update of the state (a response, fault entry), all true by rfl.
-/
namespace Sys2Proof.Machine

@[simp] theorem respond_cfg (s : State) (r : Response) : (s.respond r).cfg = s.cfg := rfl
@[simp] theorem respond_mem (s : State) (r : Response) : (s.respond r).mem = s.mem := rfl
@[simp] theorem respond_pc (s : State) (r : Response) : (s.respond r).pc = s.pc := rfl
@[simp] theorem respond_rb (s : State) (r : Response) : (s.respond r).rb = s.rb := rfl
@[simp] theorem respond_ctl (s : State) (r : Response) : (s.respond r).ctl = s.ctl := rfl
@[simp] theorem respond_cause (s : State) (r : Response) : (s.respond r).cause = s.cause := rfl
@[simp] theorem respond_finfo (s : State) (r : Response) : (s.respond r).finfo = s.finfo := rfl
@[simp] theorem respond_calls (s : State) (r : Response) : (s.respond r).calls = s.calls.tail := rfl
@[simp] theorem respond_responses (s : State) (r : Response) : (s.respond r).responses = r :: s.responses := rfl
@[simp] theorem respond_freeTick (s : State) (r : Response) : (s.respond r).freeTick = s.freeTick := rfl

@[simp] theorem raise_cfg (s : State) (e : Raised) : (s.raise e).cfg = s.cfg := rfl
@[simp] theorem raise_mem (s : State) (e : Raised) : (s.raise e).mem = s.mem := rfl
@[simp] theorem raise_pc (s : State) (e : Raised) : (s.raise e).pc = s.pc := rfl
@[simp] theorem raise_rb (s : State) (e : Raised) : (s.raise e).rb = s.rb := rfl
@[simp] theorem raise_ctl (s : State) (e : Raised) : (s.raise e).ctl = .faulted := rfl
@[simp] theorem raise_cause (s : State) (e : Raised) : (s.raise e).cause = e.cause := rfl
@[simp] theorem raise_finfo (s : State) (e : Raised) : (s.raise e).finfo = e.info := rfl
@[simp] theorem raise_calls (s : State) (e : Raised) : (s.raise e).calls = s.calls.tail := rfl
@[simp] theorem raise_responses (s : State) (e : Raised) : (s.raise e).responses = .fault e.cause e.info :: s.responses := rfl
@[simp] theorem raise_freeTick (s : State) (e : Raised) : (s.raise e).freeTick = s.freeTick := rfl

/-- Fault entry looks at nothing fault entry overwrites: the run state it began from does not matter (R230). -/
@[simp] theorem raise_with_ctl (s : State) (c : Ctl) (e : Raised) : ({ s with ctl := c } : State).raise e = s.raise e := rfl

end Sys2Proof.Machine
end

