-- ==== Sys2Proof/Laws/Word.lean ====
section
/-!
SUPPORT. When an integer is a Word.
-/
namespace Sys2Proof

theorem Word.ofInt?_eq_some (v : Int) (w : Word) : Word.ofInt? v = some w ↔ w.val = v := by
  unfold Word.ofInt?
  constructor
  · intro h
    split at h
    · cases h; rfl
    · cases h
  · rintro rfl
    exact dif_pos w.inRange

theorem Word.ofInt?_eq_none (v : Int) : Word.ofInt? v = none ↔ ¬ InWord v := by
  unfold Word.ofInt?
  split <;> simp_all

@[simp] theorem Word.ofInt?_val (w : Word) : Word.ofInt? w.val = some w := (Word.ofInt?_eq_some _ _).2 rfl

@[simp] theorem Word.val_zero : Word.zero.val = 0 := rfl

theorem Word.le_val (w : Word) : -9223372036854775808 ≤ w.val := w.inRange.1

theorem Word.val_le (w : Word) : w.val ≤ 9223372036854775807 := w.inRange.2

end Sys2Proof
end

