-- ==== Sys2Proof/Laws/Ops.lean ====
section
/-!
SUPPORT. One lemma for each outcome of each shared operation: when it answers, and with what. Later proofs cite these and
do not unfold the operations.
-/
namespace Sys2Proof.Machine

/-! Sequencing. -/

theorem bind_eq_ok {ε α β : Type} (x : Except ε α) (f : α → Except ε β) (b : β) :
    (x >>= f) = .ok b ↔ ∃ a, x = .ok a ∧ f a = .ok b := by
  cases x <;> simp [bind, Except.bind]

theorem bind_eq_error {ε α β : Type} (x : Except ε α) (f : α → Except ε β) (e : ε) :
    (x >>= f) = .error e ↔ x = .error e ∨ ∃ a, x = .ok a ∧ f a = .error e := by
  cases x <;> simp [bind, Except.bind]

/-- R125: what committing a step can do. -/
theorem commit_eq_next (s t : State) (r : Except Raised State) :
    commit s r = .next t ↔ r = .ok t ∨ ∃ e, r = .error e ∧ t = s.raise e := by
  cases r <;> simp [commit, eq_comm]

theorem commit_isNext (s : State) (r : Except Raised State) : ∃ t, commit s r = .next t := by
  cases r
  · exact ⟨_, rfl⟩
  · exact ⟨_, rfl⟩

/-! Memory access (R55 to R57). -/

theorem memRead_eq_ok (k : Access) (s : State) (a : Int) (v : Word) :
    memRead k s a = .ok v ↔ s.validAddr a ∧ s.mem.read a.toNat = v := by
  unfold memRead
  split
  · next h => simp only [Except.ok.injEq]; exact ⟨fun hv => ⟨h, hv⟩, fun hv => hv.2⟩
  · next h => exact ⟨fun hv => (by cases hv), fun hv => absurd hv.1 h⟩

theorem memRead_eq_error (k : Access) (s : State) (a : Int) (e : Raised) :
    memRead k s a = .error e ↔ ¬ s.validAddr a ∧ e = ⟨k.cause, a⟩ := by
  unfold memRead
  split
  · next h => exact ⟨fun he => (by cases he), fun he => absurd h he.1⟩
  · next h => simp only [Except.error.injEq]; exact ⟨fun he => ⟨h, he.symm⟩, fun he => he.2.symm⟩

theorem memWrite_eq_ok (s t : State) (a : Int) (v : Word) :
    memWrite s a v = .ok t ↔ s.validAddr a ∧ t = { s with mem := s.mem.write a.toNat v } := by
  unfold memWrite
  split
  · next h => simp only [Except.ok.injEq]; exact ⟨fun ht => ⟨h, ht.symm⟩, fun ht => ht.2.symm⟩
  · next h => exact ⟨fun ht => (by cases ht), fun ht => absurd ht.1 h⟩

theorem memWrite_eq_error (s : State) (a : Int) (v : Word) (e : Raised) :
    memWrite s a v = .error e ↔ ¬ s.validAddr a ∧ e = ⟨.writeOutOfBounds, a⟩ := by
  unfold memWrite
  split
  · next h => exact ⟨fun ht => (by cases ht), fun ht => absurd h ht.1⟩
  · next h => simp only [Except.error.injEq]; exact ⟨fun he => ⟨h, he.symm⟩, fun he => he.2.symm⟩

/-! Arithmetic and the program counter. -/

theorem narrow_eq_ok (w r : Word) (v : Int) : narrow w v = .ok r ↔ r.val = v := by
  rw [← Word.ofInt?_eq_some]
  unfold narrow
  cases Word.ofInt? v <;> simp

theorem narrow_eq_error (w : Word) (v : Int) (e : Raised) :
    narrow w v = .error e ↔ ¬ InWord v ∧ e = ⟨.arithmeticOverflow, w.val⟩ := by
  rw [← Word.ofInt?_eq_none]
  unfold narrow
  cases Word.ofInt? v <;> simp [eq_comm]

theorem advance_eq_ok (n : Nat) (s t : State) :
    advance n s = .ok t ↔ ∃ p : Word, p.val = s.pc.val + n ∧ t = { s with pc := p } := by
  unfold advance
  cases h : Word.ofInt? (s.pc.val + n) with
  | none =>
    rw [Word.ofInt?_eq_none] at h
    simp only [reduceCtorEq, false_iff]
    rintro ⟨p, hp, -⟩
    exact h (hp ▸ p.inRange)
  | some p =>
    rw [Word.ofInt?_eq_some] at h
    simp only [Except.ok.injEq]
    constructor
    · rintro rfl; exact ⟨p, h, rfl⟩
    · rintro ⟨q, hq, rfl⟩
      have : p = q := Word.ext (by omega)
      rw [this]

theorem advance_eq_error (n : Nat) (s : State) (e : Raised) :
    advance n s = .error e ↔ ¬ InWord (s.pc.val + n) ∧ e = ⟨.fetchOutOfBounds, s.pc.val⟩ := by
  rw [← Word.ofInt?_eq_none]
  unfold advance
  cases Word.ofInt? (s.pc.val + n) <;> simp [eq_comm]

/-- R23: after a fetch, `pc + 4` and less is a Word. -/
theorem inWord_pc_add {s : State} (h : s.validAddr s.pc.val) {n : Nat} (hn : n ≤ 4) : InWord (s.pc.val + n) := by
  have := s.cfg.atMost
  have h1 := h.1
  have h2 := h.2
  simp only [InWord, wordMin, wordMax]
  omega

/-- R23: after a fetch, an advance answers. -/
theorem advance_of_valid {s : State} (h : s.validAddr s.pc.val) {n : Nat} (hn : n ≤ 4) :
    ∃ p : Word, p.val = s.pc.val + n ∧ advance n s = .ok { s with pc := p } :=
  ⟨⟨_, inWord_pc_add h hn⟩, rfl, (advance_eq_ok _ _ _).2 ⟨_, rfl, rfl⟩⟩

/-! The addressing-mode resolver (R118, R119). -/

theorem readOperand_eq_ok (s : State) (p : Param) (v : Word) :
    readOperand s p = .ok v ↔
      (∃ a, effectiveAddress s p = some a ∧ s.validAddr a ∧ s.mem.read a.toNat = v) ∨
        (effectiveAddress s p = none ∧ p.raw = v) := by
  unfold readOperand
  cases effectiveAddress s p <;> simp [memRead_eq_ok]

theorem readOperand_eq_error (s : State) (p : Param) (e : Raised) :
    readOperand s p = .error e ↔
      ∃ a, effectiveAddress s p = some a ∧ ¬ s.validAddr a ∧ e = ⟨.readOutOfBounds, a⟩ := by
  unfold readOperand
  cases effectiveAddress s p <;> simp [memRead_eq_error, Access.cause]

theorem writeAddress_eq_ok (w : Word) (s : State) (p : Param) (d : Int) :
    writeAddress w s p = .ok d ↔ effectiveAddress s p = some d := by
  unfold writeAddress
  cases effectiveAddress s p <;> simp

theorem writeAddress_eq_error (w : Word) (s : State) (p : Param) (e : Raised) :
    writeAddress w s p = .error e ↔ effectiveAddress s p = none ∧ e = ⟨.immediateWriteTarget, w.val⟩ := by
  unfold writeAddress
  cases effectiveAddress s p <;> simp [eq_comm]

/-- R86: exactly the writable parameters have an effective address. -/
theorem effectiveAddress_isSome (s : State) (p : Param) : (effectiveAddress s p).isSome = p.writable := by
  unfold effectiveAddress Param.writable
  cases p.mode <;> rfl

/-- R119: an effective address lies in `-2^64 .. 2^64 - 2`. -/
theorem effectiveAddress_bounds {s : State} {p : Param} {a : Int} (h : effectiveAddress s p = some a) :
    -18446744073709551616 ≤ a ∧ a ≤ 18446744073709551614 := by
  have h1 := s.rb.le_val
  have h2 := s.rb.val_le
  have h3 := p.raw.le_val
  have h4 := p.raw.val_le
  unfold effectiveAddress at h
  cases hm : p.mode <;> simp only [hm, Option.some.injEq, reduceCtorEq] at h <;> omega

end Sys2Proof.Machine
end

