-- ==== Sys2Proof/Laws/Instructions.lean ====
section
/-!
SUPPORT. What the step of each shape of instruction can do, said once: its effect where it answers, and its fault.
-/
namespace Sys2Proof.Machine

/-- Format F3RRW where no check fails. -/
theorem storeResult_eq_ok (w : Word) (f : Int → Int → Int) (a b dst : Param) (s t : State) :
    storeResult w f a b dst s = .ok t ↔
      ∃ x y d r p, readOperand s a = .ok x ∧ readOperand s b = .ok y ∧ effectiveAddress s dst = some d ∧
        Word.val r = f x.val y.val ∧ s.validAddr d ∧ Word.val p = s.pc.val + 4 ∧
        t = { s with mem := s.mem.write d.toNat r, pc := p } := by
  simp only [storeResult, bind_eq_ok, writeAddress_eq_ok, narrow_eq_ok, memWrite_eq_ok, advance_eq_ok]
  constructor
  · rintro ⟨x, hx, y, hy, d, hd, r, hr, t', ⟨hv, rfl⟩, p, hp, rfl⟩
    exact ⟨x, y, d, r, p, hx, hy, hd, hr, hv, hp, rfl⟩
  · rintro ⟨x, y, d, r, p, hx, hy, hd, hr, hv, hp, rfl⟩
    exact ⟨x, hx, y, hy, d, hd, r, hr, _, ⟨hv, rfl⟩, p, hp, rfl⟩

/-- Format F3RRW where a check fails: the checks in the order of R126. -/
theorem storeResult_eq_error (w : Word) (f : Int → Int → Int) (a b dst : Param) (s : State) (e : Raised) :
    storeResult w f a b dst s = .error e ↔
      readOperand s a = .error e ∨ ∃ x, readOperand s a = .ok x ∧
        (readOperand s b = .error e ∨ ∃ y, readOperand s b = .ok y ∧
          ((effectiveAddress s dst = none ∧ e = ⟨.immediateWriteTarget, w.val⟩) ∨
            ∃ d, effectiveAddress s dst = some d ∧
              ((¬ InWord (f x.val y.val) ∧ e = ⟨.arithmeticOverflow, w.val⟩) ∨ InWord (f x.val y.val) ∧
                ((¬ s.validAddr d ∧ e = ⟨.writeOutOfBounds, d⟩) ∨
                  s.validAddr d ∧ ¬ InWord (s.pc.val + 4) ∧ e = ⟨.fetchOutOfBounds, s.pc.val⟩)))) := by
  simp only [storeResult, bind_eq_error, writeAddress_eq_ok, writeAddress_eq_error, narrow_eq_ok, narrow_eq_error,
    memWrite_eq_ok, memWrite_eq_error, advance_eq_error]
  refine or_congr Iff.rfl (exists_congr fun x => and_congr Iff.rfl (or_congr Iff.rfl (exists_congr fun y =>
    and_congr Iff.rfl (or_congr Iff.rfl (exists_congr fun d => and_congr Iff.rfl (or_congr Iff.rfl ?_))))))
  constructor
  · rintro ⟨r, hr, h⟩
    refine ⟨hr ▸ r.inRange, h.imp id ?_⟩
    rintro ⟨t, ⟨hv, rfl⟩, hp, he⟩
    exact ⟨hv, hp, he⟩
  · rintro ⟨hr, h⟩
    refine ⟨⟨_, hr⟩, rfl, h.imp id ?_⟩
    rintro ⟨hv, hp, he⟩
    exact ⟨_, ⟨hv, rfl⟩, hp, he⟩

/-- A jump where no check fails. -/
theorem jumpWhen_eq_ok (taken : Word → Bool) (cond target : Param) (s t : State) :
    jumpWhen taken cond target s = .ok t ↔
      ∃ c v, readOperand s cond = .ok c ∧ readOperand s target = .ok v ∧
        ((taken c = true ∧ t = { s with pc := v }) ∨
          (taken c = false ∧ ∃ p : Word, p.val = s.pc.val + 3 ∧ t = { s with pc := p })) := by
  simp only [jumpWhen, bind_eq_ok]
  refine exists_congr fun c => ?_
  constructor
  · rintro ⟨hc, v, hv, h⟩
    refine ⟨v, hc, hv, ?_⟩
    split at h
    · next ht => exact .inl ⟨ht, by cases h; rfl⟩
    · next ht => exact .inr ⟨by simpa using ht, (advance_eq_ok _ _ _).1 h⟩
  · rintro ⟨v, hc, hv, h⟩
    refine ⟨hc, v, hv, ?_⟩
    rcases h with ⟨ht, rfl⟩ | ⟨ht, h⟩
    · rw [if_pos ht]
    · rw [if_neg (by simp [ht])]
      exact (advance_eq_ok _ _ _).2 h

/-- A jump where a check fails. -/
theorem jumpWhen_eq_error (taken : Word → Bool) (cond target : Param) (s : State) (e : Raised) :
    jumpWhen taken cond target s = .error e ↔
      readOperand s cond = .error e ∨ ∃ c, readOperand s cond = .ok c ∧
        (readOperand s target = .error e ∨ ∃ v, readOperand s target = .ok v ∧
          taken c = false ∧ ¬ InWord (s.pc.val + 3) ∧ e = ⟨.fetchOutOfBounds, s.pc.val⟩) := by
  simp only [jumpWhen, bind_eq_error]
  refine or_congr Iff.rfl (exists_congr fun c => and_congr Iff.rfl (or_congr Iff.rfl (exists_congr fun v =>
    and_congr Iff.rfl ?_)))
  cases h : taken c <;> simp [advance_eq_error]

/-- AdjustRelativeBase where no check fails. -/
theorem adjustBase_eq_ok (w : Word) (a : Param) (s t : State) :
    adjustBase w a s = .ok t ↔
      ∃ x r p, readOperand s a = .ok x ∧ Word.val r = s.rb.val + x.val ∧ Word.val p = s.pc.val + 2 ∧
        t = { s with rb := r, pc := p } := by
  simp only [adjustBase, bind_eq_ok, narrow_eq_ok, advance_eq_ok]
  constructor
  · rintro ⟨x, hx, r, hr, p, hp, rfl⟩; exact ⟨x, r, p, hx, hr, hp, rfl⟩
  · rintro ⟨x, r, p, hx, hr, hp, rfl⟩; exact ⟨x, hx, r, hr, p, hp, rfl⟩

/-- AdjustRelativeBase where a check fails. -/
theorem adjustBase_eq_error (w : Word) (a : Param) (s : State) (e : Raised) :
    adjustBase w a s = .error e ↔
      readOperand s a = .error e ∨ ∃ x, readOperand s a = .ok x ∧
        ((¬ InWord (s.rb.val + x.val) ∧ e = ⟨.arithmeticOverflow, w.val⟩) ∨
          InWord (s.rb.val + x.val) ∧ ¬ InWord (s.pc.val + 2) ∧ e = ⟨.fetchOutOfBounds, s.pc.val⟩) := by
  simp only [adjustBase, bind_eq_error, narrow_eq_ok, narrow_eq_error, advance_eq_error]
  refine or_congr Iff.rfl (exists_congr fun x => and_congr Iff.rfl (or_congr Iff.rfl ?_))
  constructor
  · rintro ⟨r, hr, h⟩; exact ⟨hr ▸ r.inRange, h⟩
  · rintro ⟨hr, h⟩; exact ⟨⟨_, hr⟩, rfl, h⟩

/-- Output where no check fails. -/
theorem outputEmits_eq_ok (a : Param) (s t : State) :
    outputEmits a s = .ok t ↔
      ∃ v p, readOperand s a = .ok v ∧ Word.val p = s.pc.val + 2 ∧
        t = State.respond { s with pc := p } (.output v) := by
  simp only [outputEmits, bind_eq_ok, advance_eq_ok]
  constructor
  · rintro ⟨v, hv, u, ⟨p, hp, rfl⟩, h⟩; cases h; exact ⟨v, p, hv, hp, rfl⟩
  · rintro ⟨v, p, hv, hp, rfl⟩; exact ⟨v, hv, _, ⟨p, hp, rfl⟩, rfl⟩

/-- Output where a check fails. -/
theorem outputEmits_eq_error (a : Param) (s : State) (e : Raised) :
    outputEmits a s = .error e ↔
      readOperand s a = .error e ∨ ∃ v, readOperand s a = .ok v ∧
        ¬ InWord (s.pc.val + 2) ∧ e = ⟨.fetchOutOfBounds, s.pc.val⟩ := by
  simp [outputEmits, bind_eq_error, advance_eq_error]

/-- Input's first phase where it suspends. -/
theorem inputSuspends_eq_ok (w : Word) (dst : Param) (s t : State) :
    inputSuspends w dst s = .ok t ↔
      ∃ d, effectiveAddress s dst = some d ∧ t = State.respond { s with ctl := .awaitingInput } .inputRequested := by
  simp only [inputSuspends, bind_eq_ok, writeAddress_eq_ok, Except.ok.injEq]
  exact exists_congr fun d => and_congr Iff.rfl eq_comm

/-- Input's first phase raises nothing but for an ill-formed instruction. -/
theorem inputSuspends_eq_error (w : Word) (dst : Param) (s : State) (e : Raised) :
    inputSuspends w dst s = .error e ↔ effectiveAddress s dst = none ∧ e = ⟨.immediateWriteTarget, w.val⟩ := by
  simp [inputSuspends, bind_eq_error, writeAddress_eq_error]

/-- Input's completion where no check fails. -/
theorem inputCompletes_eq_ok (w v : Word) (dst : Param) (s t : State) :
    inputCompletes w v dst s = .ok t ↔
      ∃ d p, effectiveAddress s dst = some d ∧ s.validAddr d ∧ Word.val p = s.pc.val + 2 ∧
        t = State.respond { s with mem := s.mem.write d.toNat v, pc := p, ctl := .ready } .ack := by
  simp only [inputCompletes, bind_eq_ok, writeAddress_eq_ok, memWrite_eq_ok, advance_eq_ok]
  constructor
  · rintro ⟨d, hd, u, ⟨hv, rfl⟩, x, ⟨p, hp, rfl⟩, h⟩; cases h; exact ⟨d, p, hd, hv, hp, rfl⟩
  · rintro ⟨d, p, hd, hv, hp, rfl⟩; exact ⟨d, hd, _, ⟨hv, rfl⟩, _, ⟨p, hp, rfl⟩, rfl⟩

/-- Input's completion where a check fails. -/
theorem inputCompletes_eq_error (w v : Word) (dst : Param) (s : State) (e : Raised) :
    inputCompletes w v dst s = .error e ↔
      (effectiveAddress s dst = none ∧ e = ⟨.immediateWriteTarget, w.val⟩) ∨
        ∃ d, effectiveAddress s dst = some d ∧
          ((¬ s.validAddr d ∧ e = ⟨.writeOutOfBounds, d⟩) ∨
            s.validAddr d ∧ ¬ InWord (s.pc.val + 2) ∧ e = ⟨.fetchOutOfBounds, s.pc.val⟩) := by
  simp only [inputCompletes, bind_eq_error, writeAddress_eq_ok, writeAddress_eq_error, memWrite_eq_ok,
    memWrite_eq_error, advance_eq_error]
  refine or_congr Iff.rfl (exists_congr fun d => and_congr Iff.rfl (or_congr Iff.rfl ?_))
  constructor
  · rintro ⟨t, ⟨hv, rfl⟩, h⟩
    rcases h with h | ⟨u, -, h⟩
    · exact ⟨hv, h⟩
    · cases h
  · rintro ⟨hv, h⟩; exact ⟨_, ⟨hv, rfl⟩, .inl h⟩

/-- When a supplied value is there. -/
theorem suppliedValue_eq_some (s : State) (v : Word) :
    suppliedValue s = some v ↔ s.ctl = .awaitingInput ∧ ∃ rest, s.calls = .supplyInput v :: rest := by
  unfold suppliedValue
  split
  · next v' rest hc hl => simp [hc, hl]
  · next h =>
    simp only [reduceCtorEq, false_iff]
    rintro ⟨hc, rest, hl⟩
    exact h v rest hc hl

/-- No meaning stops: every instruction answers a next state in every state. -/
theorem exec_isNext (i : Instr) (s : State) : ∃ t, exec i s = .next t := by
  cases i with
  | add a b dst => exact commit_isNext _ _
  | mul a b dst => exact commit_isNext _ _
  | input dst =>
    show ∃ t, execInput dst s = .next t
    unfold execInput
    split <;> exact commit_isNext _ _
  | output a => exact commit_isNext _ _
  | jumpIfTrue cond target => exact commit_isNext _ _
  | jumpIfFalse cond target => exact commit_isNext _ _
  | lessThan a b dst => exact commit_isNext _ _
  | equals a b dst => exact commit_isNext _ _
  | adjustRelativeBase a => exact commit_isNext _ _
  | halt => exact ⟨_, rfl⟩

/-! Fetch (R111 to R113). -/

theorem fetchHeader_eq_ok (s : State) (h : Header) :
    fetchHeader s = .ok h ↔ s.validAddr s.pc.val ∧ decodeHeader (s.mem.read s.pc.val.toNat) = .ok h := by
  simp only [fetchHeader, bind_eq_ok, memRead_eq_ok]
  constructor
  · rintro ⟨w, ⟨hv, rfl⟩, hd⟩
    refine ⟨hv, ?_⟩
    split at hd
    · next hh => cases hd; exact hh
    · cases hd
  · rintro ⟨hv, hd⟩
    exact ⟨_, ⟨hv, rfl⟩, by rw [hd]⟩

theorem fetchHeader_eq_error (s : State) (e : Raised) :
    fetchHeader s = .error e ↔
      (¬ s.validAddr s.pc.val ∧ e = ⟨.fetchOutOfBounds, s.pc.val⟩) ∨
        s.validAddr s.pc.val ∧ ∃ d, decodeHeader (s.mem.read s.pc.val.toNat) = .error d ∧
          e = ⟨causeOfDecodeError d, (s.mem.read s.pc.val.toNat).val⟩ := by
  simp only [fetchHeader, bind_eq_error, memRead_eq_ok, memRead_eq_error, Access.cause]
  refine or_congr Iff.rfl ?_
  constructor
  · rintro ⟨w, ⟨hv, rfl⟩, hd⟩
    refine ⟨hv, ?_⟩
    split at hd
    · cases hd
    · next d hh => cases hd; exact ⟨d, hh, rfl⟩
  · rintro ⟨hv, d, hd, rfl⟩
    exact ⟨_, ⟨hv, rfl⟩, by rw [hd]⟩

/-- A fetch reads only the program counter, memory and the capacity. -/
theorem fetchInstr_with_ctl (s : State) (c : Ctl) : fetchInstr { s with ctl := c } = fetchInstr s := rfl

/-- What a successful fetch read: the word at a valid `pc`, which decodes to the instruction's header. -/
theorem fetchInstr_eq_ok {s : State} {i : Instr} (h : fetchInstr s = .ok i) :
    ∃ hd p1 p2 p3, fetchHeader s = .ok hd ∧ fetchParam s hd.op.paramCount 1 = .ok p1 ∧
      fetchParam s hd.op.paramCount 2 = .ok p2 ∧ fetchParam s hd.op.paramCount 3 = .ok p3 ∧
      hd.instr p1 p2 p3 = i := by
  simp only [fetchInstr, bind_eq_ok] at h
  obtain ⟨hd, h0, p1, h1, p2, h2, p3, h3, h4⟩ := h
  exact ⟨hd, p1, p2, p3, h0, h1, h2, h3, by cases h4; rfl⟩

end Sys2Proof.Machine
end

