-- ==== Sys2Proof/Laws/Exec.lean ====
section
/-!
SUPPORT. What an instruction can do, said once: either its effect, or fault entry with one of its causes. Claims about
every instruction split on this and do not unfold the meanings.
-/
namespace Sys2Proof.Machine

/-- The effect of format F3RRW: the exact value `f x y` in the destination, `pc` advanced by 4. -/
def Stored (f : Int → Int → Int) (a b dst : Param) (s t : State) : Prop :=
  ∃ x y d r p, readOperand s a = .ok x ∧ readOperand s b = .ok y ∧ effectiveAddress s dst = some d ∧
    Word.val r = f x.val y.val ∧ s.validAddr d ∧ Word.val p = s.pc.val + 4 ∧
    t = { s with mem := s.mem.write d.toNat r, pc := p }

/-- The effect of a jump. -/
def Jumped (taken : Word → Bool) (cond target : Param) (s t : State) : Prop :=
  ∃ c v, readOperand s cond = .ok c ∧ readOperand s target = .ok v ∧
    ((taken c = true ∧ t = { s with pc := v }) ∨
      (taken c = false ∧ ∃ p : Word, p.val = s.pc.val + 3 ∧ t = { s with pc := p }))

/-- The effect of an instruction, where it does not fault. -/
def Effect (i : Instr) (s t : State) : Prop :=
  match i with
  | .add a b dst => Stored (fun x y => x + y) a b dst s t
  | .mul a b dst => Stored (fun x y => x * y) a b dst s t
  | .input dst =>
    (suppliedValue s = none ∧ ∃ d, effectiveAddress s dst = some d ∧
      t = State.respond { s with ctl := .awaitingInput } .inputRequested) ∨
    ∃ v, suppliedValue s = some v ∧ ∃ d p, effectiveAddress s dst = some d ∧ s.validAddr d ∧
      Word.val p = s.pc.val + 2 ∧ t = State.respond { s with mem := s.mem.write d.toNat v, pc := p, ctl := .ready } .ack
  | .output a => ∃ v p, readOperand s a = .ok v ∧ Word.val p = s.pc.val + 2 ∧
      t = State.respond { s with pc := p } (.output v)
  | .jumpIfTrue cond target => Jumped isNonZero cond target s t
  | .jumpIfFalse cond target => Jumped (fun c => !isNonZero c) cond target s t
  | .lessThan a b dst => Stored (fun x y => truthValue (x < y)) a b dst s t
  | .equals a b dst => Stored (fun x y => truthValue (x = y)) a b dst s t
  | .adjustRelativeBase a => ∃ x r p, readOperand s a = .ok x ∧ Word.val r = s.rb.val + x.val ∧
      Word.val p = s.pc.val + 2 ∧ t = { s with rb := r, pc := p }
  | .halt => t = State.respond { s with ctl := .halted } .halted

/-- What a well-formed instruction may raise at a `pc` that was fetched from. -/
def MayRaise (i : Instr) (s : State) (e : Raised) : Prop :=
  i.wellFormed = true → s.validAddr s.pc.val →
    e.cause ∈ executionCauses i ∧ (-18446744073709551616 ≤ e.info ∧ e.info < 18446744073709551616) ∧
      ((∃ dst, i = .input dst) → s.ctl = .awaitingInput)

theorem inWord_truthValue (b : Bool) : InWord (truthValue b) := by cases b <;> decide

theorem writable_effectiveAddress {s : State} {p : Param} (h : p.writable = true) :
    ∃ d, effectiveAddress s p = some d := by
  rw [← effectiveAddress_isSome s p] at h
  exact Option.isSome_iff_exists.1 h

/-- What a read parameter raises. -/
theorem readOperand_raises {s : State} {p : Param} {e : Raised} (h : readOperand s p = .error e) :
    e.cause = .readOutOfBounds ∧ -18446744073709551616 ≤ e.info ∧ e.info < 18446744073709551616 := by
  obtain ⟨a, ha, -, rfl⟩ := (readOperand_eq_error _ _ _).1 h
  have := effectiveAddress_bounds ha
  exact ⟨rfl, by simp only; omega⟩

theorem Word.val_65bits (w : Word) : -18446744073709551616 ≤ w.val ∧ w.val < 18446744073709551616 := by
  have := w.le_val
  have := w.val_le
  omega

/-- What format F3RRW raises. -/
theorem storeResult_raises {w : Word} {f : Int → Int → Int} {a b dst : Param} {s : State} {e : Raised}
    (h : storeResult w f a b dst s = .error e) (hd : dst.writable = true) (hp : s.validAddr s.pc.val) :
    (e.cause = .readOutOfBounds ∨ e.cause = .writeOutOfBounds ∨
      (e.cause = .arithmeticOverflow ∧ ∃ x y : Word, ¬ InWord (f x.val y.val))) ∧
    -18446744073709551616 ≤ e.info ∧ e.info < 18446744073709551616 := by
  obtain ⟨d', hd'⟩ := writable_effectiveAddress (s := s) hd
  rcases (storeResult_eq_error _ _ _ _ _ _ _).1 h with h | ⟨x, -, h | ⟨y, -, ⟨h, -⟩ | ⟨d, ha, h2⟩⟩⟩
  · exact ⟨.inl (readOperand_raises h).1, (readOperand_raises h).2⟩
  · exact ⟨.inl (readOperand_raises h).1, (readOperand_raises h).2⟩
  · rw [hd'] at h; cases h
  · rcases h2 with ⟨h2, rfl⟩ | ⟨-, ⟨-, rfl⟩ | ⟨-, h3, -⟩⟩
    · exact ⟨.inr (.inr ⟨rfl, x, y, h2⟩), Word.val_65bits _⟩
    · have := effectiveAddress_bounds ha
      exact ⟨.inr (.inl rfl), by simp only; omega⟩
    · exact absurd (inWord_pc_add hp (n := 4) (by omega)) h3

/-- What a jump raises. -/
theorem jumpWhen_raises {taken : Word → Bool} {cond target : Param} {s : State} {e : Raised}
    (h : jumpWhen taken cond target s = .error e) (hp : s.validAddr s.pc.val) :
    e.cause = .readOutOfBounds ∧ -18446744073709551616 ≤ e.info ∧ e.info < 18446744073709551616 := by
  rcases (jumpWhen_eq_error _ _ _ _ _).1 h with h | ⟨x, -, h | ⟨y, -, -, h, -⟩⟩
  · exact readOperand_raises h
  · exact readOperand_raises h
  · exact absurd (inWord_pc_add hp (n := 3) (by omega)) h

/-- The two outcomes of an instruction: its effect, or fault entry. -/
theorem exec_cases {i : Instr} {s t : State} (h : exec i s = .next t) :
    Effect i s t ∨ ∃ e, t = s.raise e ∧ MayRaise i s e := by
  cases i with
  | add a b dst =>
    refine ((commit_eq_next _ _ _).1 h).imp (storeResult_eq_ok _ _ _ _ _ _ _).1 fun ⟨e, he, ht⟩ => ⟨e, ht, fun hw hp => ?_⟩
    obtain ⟨h1 | h1 | ⟨h1, -⟩, h2⟩ := storeResult_raises he hw hp <;> exact ⟨by simp [executionCauses, h1], h2, by simp⟩
  | mul a b dst =>
    refine ((commit_eq_next _ _ _).1 h).imp (storeResult_eq_ok _ _ _ _ _ _ _).1 fun ⟨e, he, ht⟩ => ⟨e, ht, fun hw hp => ?_⟩
    obtain ⟨h1 | h1 | ⟨h1, -⟩, h2⟩ := storeResult_raises he hw hp <;> exact ⟨by simp [executionCauses, h1], h2, by simp⟩
  | lessThan a b dst =>
    refine ((commit_eq_next _ _ _).1 h).imp (storeResult_eq_ok _ _ _ _ _ _ _).1 fun ⟨e, he, ht⟩ => ⟨e, ht, fun hw hp => ?_⟩
    obtain ⟨h1 | h1 | ⟨-, x, y, h1⟩, h2⟩ := storeResult_raises he hw hp
    · exact ⟨by simp [executionCauses, h1], h2, by simp⟩
    · exact ⟨by simp [executionCauses, h1], h2, by simp⟩
    · exact absurd (inWord_truthValue _) h1
  | equals a b dst =>
    refine ((commit_eq_next _ _ _).1 h).imp (storeResult_eq_ok _ _ _ _ _ _ _).1 fun ⟨e, he, ht⟩ => ⟨e, ht, fun hw hp => ?_⟩
    obtain ⟨h1 | h1 | ⟨-, x, y, h1⟩, h2⟩ := storeResult_raises he hw hp
    · exact ⟨by simp [executionCauses, h1], h2, by simp⟩
    · exact ⟨by simp [executionCauses, h1], h2, by simp⟩
    · exact absurd (inWord_truthValue _) h1
  | jumpIfTrue cond target =>
    refine ((commit_eq_next _ _ _).1 h).imp (jumpWhen_eq_ok _ _ _ _ _).1 fun ⟨e, he, ht⟩ => ⟨e, ht, fun _ hp => ?_⟩
    have h1 := jumpWhen_raises he hp
    exact ⟨by simp [executionCauses, h1.1], h1.2, by simp⟩
  | jumpIfFalse cond target =>
    refine ((commit_eq_next _ _ _).1 h).imp (jumpWhen_eq_ok _ _ _ _ _).1 fun ⟨e, he, ht⟩ => ⟨e, ht, fun _ hp => ?_⟩
    have h1 := jumpWhen_raises he hp
    exact ⟨by simp [executionCauses, h1.1], h1.2, by simp⟩
  | output a =>
    refine ((commit_eq_next _ _ _).1 h).imp (outputEmits_eq_ok _ _ _).1 fun ⟨e, he, ht⟩ => ⟨e, ht, fun _ hp => ?_⟩
    rcases (outputEmits_eq_error _ _ _).1 he with h1 | ⟨v, -, h1, -⟩
    · exact ⟨by simp [executionCauses, (readOperand_raises h1).1], (readOperand_raises h1).2, by simp⟩
    · exact absurd (inWord_pc_add hp (n := 2) (by omega)) h1
  | adjustRelativeBase a =>
    refine ((commit_eq_next _ _ _).1 h).imp (adjustBase_eq_ok _ _ _ _).1 fun ⟨e, he, ht⟩ => ⟨e, ht, fun _ hp => ?_⟩
    rcases (adjustBase_eq_error _ _ _ _).1 he with h1 | ⟨v, -, ⟨-, rfl⟩ | ⟨-, h1, -⟩⟩
    · exact ⟨by simp [executionCauses, (readOperand_raises h1).1], (readOperand_raises h1).2, by simp⟩
    · exact ⟨by simp [executionCauses], Word.val_65bits _, by simp⟩
    · exact absurd (inWord_pc_add hp (n := 2) (by omega)) h1
  | halt => exact .inl (by cases h; rfl)
  | input dst =>
    change execInput dst s = _ at h
    unfold execInput at h
    split at h
    · next hv =>
      refine ((commit_eq_next _ _ _).1 h).imp (fun h1 => .inl ⟨hv, (inputSuspends_eq_ok _ _ _ _).1 h1⟩)
        fun ⟨e, he, ht⟩ => ⟨e, ht, fun hw _ => ?_⟩
      obtain ⟨d, hd⟩ := writable_effectiveAddress (s := s) (p := dst) hw
      have h1 := ((inputSuspends_eq_error _ _ _ _).1 he).1
      rw [hd] at h1; cases h1
    · next v hv =>
      refine ((commit_eq_next _ _ _).1 h).imp (fun h1 => .inr ⟨v, hv, (inputCompletes_eq_ok _ _ _ _ _).1 h1⟩)
        fun ⟨e, he, ht⟩ => ⟨e, ht, fun hw hp => ?_⟩
      obtain ⟨d, hd⟩ := writable_effectiveAddress (s := s) (p := dst) hw
      rcases (inputCompletes_eq_error _ _ _ _ _).1 he with ⟨h1, -⟩ | ⟨d', h1, ⟨-, rfl⟩ | ⟨-, h2, -⟩⟩
      · rw [hd] at h1; cases h1
      · have := effectiveAddress_bounds h1
        exact ⟨by simp [executionCauses], by simp only; omega, fun _ => ((suppliedValue_eq_some _ _).1 hv).1⟩
      · exact absurd (inWord_pc_add hp (n := 2) (by omega)) h2

/-- An instruction whose checks pass answers its effect. -/
theorem exec_of_effect {i : Instr} {s t : State} (h : Effect i s t) : exec i s = .next t := by
  cases i with
  | add a b dst => exact (commit_eq_next _ _ _).2 (.inl ((storeResult_eq_ok _ _ _ _ _ _ _).2 h))
  | mul a b dst => exact (commit_eq_next _ _ _).2 (.inl ((storeResult_eq_ok _ _ _ _ _ _ _).2 h))
  | lessThan a b dst => exact (commit_eq_next _ _ _).2 (.inl ((storeResult_eq_ok _ _ _ _ _ _ _).2 h))
  | equals a b dst => exact (commit_eq_next _ _ _).2 (.inl ((storeResult_eq_ok _ _ _ _ _ _ _).2 h))
  | jumpIfTrue cond target => exact (commit_eq_next _ _ _).2 (.inl ((jumpWhen_eq_ok _ _ _ _ _).2 h))
  | jumpIfFalse cond target => exact (commit_eq_next _ _ _).2 (.inl ((jumpWhen_eq_ok _ _ _ _ _).2 h))
  | output a => exact (commit_eq_next _ _ _).2 (.inl ((outputEmits_eq_ok _ _ _).2 h))
  | adjustRelativeBase a => exact (commit_eq_next _ _ _).2 (.inl ((adjustBase_eq_ok _ _ _ _).2 h))
  | halt => exact congrArg Host.Outcome.next (Eq.symm h)
  | input dst =>
    show execInput dst s = _
    unfold execInput
    rcases h with ⟨hv, h⟩ | ⟨v, hv, h⟩
    · rw [hv]; exact (commit_eq_next _ _ _).2 (.inl ((inputSuspends_eq_ok _ _ _ _).2 h))
    · rw [hv]; exact (commit_eq_next _ _ _).2 (.inl ((inputCompletes_eq_ok _ _ _ _ _).2 h))

/-- An effect latches nothing: `cause`, `finfo`, the capacity and the free values' counter stay, and no effect leads to
Faulted. -/
theorem effect_keeps {i : Instr} {s t : State} (h : Effect i s t) :
    t.cause = s.cause ∧ t.finfo = s.finfo ∧ t.cfg = s.cfg ∧ t.freeTick = s.freeTick ∧
      (t.ctl = .faulted → s.ctl = .faulted) := by
  cases i with
  | add a b dst | mul a b dst | lessThan a b dst | equals a b dst =>
    obtain ⟨x, y, d, r, p, -, -, -, -, -, -, rfl⟩ := h; simp
  | jumpIfTrue cond target | jumpIfFalse cond target =>
    obtain ⟨c, v, -, -, ⟨-, rfl⟩ | ⟨-, p, -, rfl⟩⟩ := h <;> simp
  | output a => obtain ⟨v, p, -, -, rfl⟩ := h; simp
  | adjustRelativeBase a => obtain ⟨x, r, p, -, -, -, rfl⟩ := h; simp
  | halt => cases h; simp
  | input dst =>
    rcases h with ⟨-, d, -, rfl⟩ | ⟨v, -, d, p, -, -, -, rfl⟩ <;> simp

end Sys2Proof.Machine
end

