-- ==== Sys2Proof/Laws/PerInstr.lean ====
section
/-!
SUPPORT. Facts of each instruction as syntax, one lemma a constructor. The family EncodedLength: the cells of an
instruction are as many as its length, and its length is 1 to 4 (spec/30_encoding.md R84).
-/
namespace Sys2Proof.Laws.EncodedLength

/-- R84: "The length of an instruction is `1 + n` cells". -/
def Statement (i : Instr) : Prop := (encode i).length = i.length ∧ 1 ≤ i.length ∧ i.length ≤ 4

theorem add (a b dst : Param) : Statement (.add a b dst) := ⟨rfl, (by decide : 1 ≤ 4), (by decide : 4 ≤ 4)⟩
theorem mul (a b dst : Param) : Statement (.mul a b dst) := ⟨rfl, (by decide : 1 ≤ 4), (by decide : 4 ≤ 4)⟩
theorem input (dst : Param) : Statement (.input dst) := ⟨rfl, (by decide : 1 ≤ 2), (by decide : 2 ≤ 4)⟩
theorem output (a : Param) : Statement (.output a) := ⟨rfl, (by decide : 1 ≤ 2), (by decide : 2 ≤ 4)⟩
theorem jumpIfTrue (cond target : Param) : Statement (.jumpIfTrue cond target) := ⟨rfl, (by decide : 1 ≤ 3), (by decide : 3 ≤ 4)⟩
theorem jumpIfFalse (cond target : Param) : Statement (.jumpIfFalse cond target) := ⟨rfl, (by decide : 1 ≤ 3), (by decide : 3 ≤ 4)⟩
theorem lessThan (a b dst : Param) : Statement (.lessThan a b dst) := ⟨rfl, (by decide : 1 ≤ 4), (by decide : 4 ≤ 4)⟩
theorem equals (a b dst : Param) : Statement (.equals a b dst) := ⟨rfl, (by decide : 1 ≤ 4), (by decide : 4 ≤ 4)⟩
theorem adjustRelativeBase (a : Param) : Statement (.adjustRelativeBase a) := ⟨rfl, (by decide : 1 ≤ 2), (by decide : 2 ≤ 4)⟩
theorem halt : Statement .halt := ⟨rfl, (by decide : 1 ≤ 1), (by decide : 1 ≤ 4)⟩

end Sys2Proof.Laws.EncodedLength
end

