-- ==== Sys2Proof/Laws/Step.lean ====
section
/-!
SUPPORT. What a step can do, said once, and runs of several steps.
-/
namespace Sys2Proof.Machine

/-! Fetch. -/

theorem causeOfDecodeError_code (d : DecodeError) :
    1 ≤ (causeOfDecodeError d).code ∧ (causeOfDecodeError d).code ≤ 4 := by
  cases d <;> decide

/-- What the fetch of a raw parameter raises. -/
theorem fetchParam_raises {s : State} {n i : Nat} {e : Raised} (h : fetchParam s n i = .error e) :
    i ≤ n ∧ ¬ s.validAddr (s.pc.val + i) ∧ e = ⟨.fetchOutOfBounds, s.pc.val + i⟩ := by
  unfold fetchParam at h
  split at h
  · next hi => exact ⟨hi, (memRead_eq_error _ _ _ _).1 h⟩
  · cases h

/-- A fetch raises one of the codes 1 to 5, and 65 bits of information. -/
theorem fetchInstr_raises {s : State} {e : Raised} (h : fetchInstr s = .error e) :
    1 ≤ e.cause.code ∧ e.cause.code ≤ 5 ∧ -18446744073709551616 ≤ e.info ∧ e.info < 18446744073709551616 := by
  have h1 := s.pc.le_val
  have h2 := s.pc.val_le
  have param : ∀ {n i : Nat}, i ≤ 3 → fetchParam s n i = .error e → 1 ≤ e.cause.code ∧ e.cause.code ≤ 5 ∧
      -18446744073709551616 ≤ e.info ∧ e.info < 18446744073709551616 := by
    intro n i hi hp
    obtain ⟨-, -, rfl⟩ := fetchParam_raises hp
    simp only [Cause.code]
    omega
  simp only [fetchInstr, bind_eq_error] at h
  rcases h with h | ⟨hd, -, h | ⟨p1, -, h | ⟨p2, -, h | ⟨p3, -, h⟩⟩⟩⟩
  · rcases (fetchHeader_eq_error _ _).1 h with ⟨-, rfl⟩ | ⟨-, d, -, rfl⟩
    · simp only [Cause.code]; omega
    · have h3 := causeOfDecodeError_code d
      have h4 := Word.val_65bits (s.mem.read s.pc.val.toNat)
      exact ⟨h3.1, by simp only; omega, h4⟩
  · exact param (by omega) h
  · exact param (by omega) h
  · exact param (by omega) h
  · cases h

/-- An instruction that is fetched is well formed, and its word stands at a valid `pc`. -/
theorem fetchInstr_wellFormed {s : State} {i : Instr} (h : fetchInstr s = .ok i) :
    i.wellFormed = true ∧ s.validAddr s.pc.val ∧ s.mem.read s.pc.val.toNat = i.word := by
  obtain ⟨hd, p1, p2, p3, h0, -, -, -, rfl⟩ := fetchInstr_eq_ok h
  obtain ⟨hv, hw⟩ := (fetchHeader_eq_ok _ _).1 h0
  have h1 := decodeHeader_legal hw p1 p2 p3
  exact ⟨h1.2, hv, by rw [decodeHeader_word hw, Instr.word, h1.1]⟩

/-! One step. -/

/-- Every way a step answers a next state. -/
inductive Stepped (s t : State) : Prop where
  | idle (h : s.calls = []) (c : s.ctl ≠ .fresh ∧ s.ctl ≠ .ready) (ht : t = s)
  | fetchFault (e : Raised) (h : Running s) (hf : fetchInstr s = .error e) (ht : t = s.raise e)
  | ran (i : Instr) (h : Running s) (hf : fetchInstr s = .ok i) (ht : exec i { s with ctl := .ready } = .next t)
  | repeated (r : Response) (h : s.calls.head? = some .resume)
      (c : (s.ctl = .awaitingInput ∧ r = .inputRequested) ∨ (s.ctl = .halted ∧ r = .halted) ∨
        (s.ctl = .faulted ∧ r = .fault s.cause s.finfo)) (ht : t = s.respond r)
  | completed (v : Word) (dst : Param) (h : s.calls.head? = some (.supplyInput v)) (c : s.ctl = .awaitingInput)
      (hf : fetchInstr s = .ok (.input dst)) (ht : exec (.input dst) s = .next t)
  | outOfTurn (v : Word) (h : s.calls.head? = some (.supplyInput v))
      (c : s.ctl = .fresh ∨ s.ctl = .ready ∨ s.ctl = .halted) (ht : t = s.raise ⟨.protocolViolation, 0⟩)
  | latched (v : Word) (h : s.calls.head? = some (.supplyInput v)) (c : s.ctl = .faulted)
      (ht : t = s.respond (.fault s.cause s.finfo))
  | loaded (p : List Word) (h : s.calls.head? = some (.load p)) (ht : t = load p s)
  | peeked (a : Int) (h : s.calls.head? = some (.peek a)) (ht : t = s.respond (peekResponse s a))
  | asked (h : s.calls.head? = some .status) (ht : t = s.respond (statusResponse s))

theorem runInstr_cases {s t : State} (h : runInstr { s with ctl := .ready } = .next t) (hr : Running s) :
    Stepped s t := by
  unfold runInstr at h
  rw [fetchInstr_with_ctl] at h
  split at h
  · next i hi => exact .ran i hr hi h
  · next e he => exact .fetchFault e hr he (by cases h; rfl)

/-- What a step can do. -/
theorem step_cases {s t : State} (h : step s = .next t) : Stepped s t := by
  unfold step transact at h
  split at h
  · next hl =>
    cases hc : s.ctl <;> simp only [hc] at h
    · exact runInstr_cases (by simpa only [resume, hc] using h) ⟨by simp [hc], by simp [hl]⟩
    · exact runInstr_cases (by simpa only [resume, hc] using h) ⟨by simp [hc], by simp [hl]⟩
    all_goals exact .idle hl (by simp [hc]) (by cases h; rfl)
  · next p rest hl => exact .loaded p (by simp [hl]) (by cases h; rfl)
  · next rest hl =>
    have hd : s.calls.head? = some .resume := by simp [hl]
    unfold resume at h
    cases hc : s.ctl <;> simp only [hc] at h
    · exact runInstr_cases h ⟨by simp [hc], by simp [hl]⟩
    · exact runInstr_cases h ⟨by simp [hc], by simp [hl]⟩
    · exact .repeated .inputRequested hd (by simp [hc]) (by cases h; rfl)
    · exact .repeated .halted hd (by simp [hc]) (by cases h; rfl)
    · exact .repeated (.fault s.cause s.finfo) hd (by simp [hc]) (by cases h; rfl)
  · next v rest hl =>
    have hd : s.calls.head? = some (.supplyInput v) := by simp [hl]
    unfold supplyInput at h
    cases hc : s.ctl <;> simp only [hc] at h
    · exact .outOfTurn v hd (by simp [hc]) (by cases h; rfl)
    · exact .outOfTurn v hd (by simp [hc]) (by cases h; rfl)
    · split at h
      · next dst hf => exact .completed v dst hd hc hf h
      · cases h
    · exact .outOfTurn v hd (by simp [hc]) (by cases h; rfl)
    · exact .latched v hd hc (by cases h; rfl)
  · next a rest hl => exact .peeked a (by simp [hl]) (by cases h; rfl)
  · next rest hl => exact .asked (by simp [hl]) (by cases h; rfl)

/-- Inside a `resume` that executes, a step fetches and runs. -/
theorem step_of_running {s : State} (h : Running s) : step s = runInstr { s with ctl := .ready } := by
  obtain ⟨cfg, mem, pc, rb, ctl, cause, finfo, calls, responses, freeTick⟩ := s
  obtain ⟨hc, hl⟩ := h
  rcases calls with _ | ⟨c, rest⟩
  · rcases hc with rfl | rfl <;> rfl
  · obtain rfl : c = .resume := by simpa using hl
    rcases hc with rfl | rfl <;> rfl

/-- What a program that fits leaves (R35). -/
theorem load_fits {s : State} {program : List Word} (h : program.length ≤ s.cfg.memCapacity) :
    load program s = State.respond { s with mem := .ofProgram program, pc := .zero, rb := .zero, ctl := .fresh,
                                            cause := .none, finfo := 0 } .ack := by
  unfold load; rw [if_pos h]

/-- What a program that does not fit leaves (R36). -/
theorem load_tooLarge {s : State} {program : List Word} (h : ¬ program.length ≤ s.cfg.memCapacity) :
    load program s = State.raise { s with mem := .ofCells s.cfg.memCapacity (Config.failedLoadCells s.freeTick),
                                          pc := .zero, rb := .zero, freeTick := s.freeTick + 1 }
      ⟨.loadTooLarge, program.length⟩ := by
  unfold load; rw [if_neg h]

/-- R7: no step changes the capacity. -/
theorem step_cfg {s t : State} (h : step s = .next t) : t.cfg = s.cfg := by
  have ex : ∀ {i u v}, exec i u = .next v → v.cfg = u.cfg := fun hx => by
    rcases exec_cases hx with hx | ⟨e, rfl, -⟩
    · exact (effect_keeps hx).2.2.1
    · rfl
  cases step_cases h with
  | ran i _ _ ht => exact ex (u := { s with ctl := .ready }) ht
  | completed v dst _ _ _ ht => exact ex ht
  | loaded p _ ht =>
    by_cases hp : p.length ≤ s.cfg.memCapacity
    · rw [ht, load_fits hp]; rfl
    · rw [ht, load_tooLarge hp]; rfl
  | idle _ _ ht => subst ht; rfl
  | fetchFault _ _ _ ht => subst ht; rfl
  | repeated _ _ _ ht => subst ht; rfl
  | outOfTurn _ _ _ ht => subst ht; rfl
  | latched _ _ _ ht => subst ht; rfl
  | peeked _ _ ht => subst ht; rfl
  | asked _ ht => subst ht; rfl

/-! Runs. -/

/-- `runFor` is the host's own run of the machine. -/
theorem runFor_eq_host (k : Nat) (s : State) : runFor k s = Host.Core.run Sys2Proof.core k s := by
  induction k generalizing s with
  | zero => rfl
  | succ k ih =>
    refine Eq.trans ?_ (Host.Core.run.eq_2 Sys2Proof.core s k).symm
    rw [runFor]
    have hs : Sys2Proof.core.step s = step s := rfl
    rw [hs]
    cases step s with
    | next u => exact ih u
    | fault r => rfl
    | refused r => rfl

theorem runFor_zero (s : State) : runFor 0 s = .next s := rfl

/-- A run's first step. -/
theorem runFor_succ {k : Nat} {s t : State} : runFor (k + 1) s = .next t ↔ ∃ u, step s = .next u ∧ runFor k u = .next t := by
  rw [runFor]
  cases h : step s <;> simp

/-- A run's last step. -/
theorem runFor_succ_last {k : Nat} {s t : State} :
    runFor (k + 1) s = .next t ↔ ∃ u, runFor k s = .next u ∧ step u = .next t := by
  induction k generalizing s with
  | zero => simp [runFor_succ, runFor_zero]
  | succ k ih =>
    rw [runFor_succ]
    simp only [ih, runFor_succ]
    constructor
    · rintro ⟨u, hu, v, hv, ht⟩; exact ⟨v, ⟨u, hu, hv⟩, ht⟩
    · rintro ⟨v, ⟨u, hu, hv⟩, ht⟩; exact ⟨u, hu, v, hv, ht⟩

/-- A claim kept by every step is kept by every run. -/
theorem runFor_induction {P : State → Prop} (keep : ∀ s t, P s → step s = .next t → P t) {k : Nat} {s t : State}
    (h0 : P s) (h : runFor k s = .next t) : P t := by
  induction k generalizing s with
  | zero => cases h; exact h0
  | succ k ih =>
    obtain ⟨u, hu, ht⟩ := runFor_succ.1 h
    exact ih (keep _ _ h0 hu) ht

end Sys2Proof.Machine
end

