-- ==== Sys2Proof/Tests/Slice0.lean ====
section
/-!
SUPPORT. Tests: the smoke of WellFormed, decoding of words written out, one step of each instruction, and for each
obligation with hypotheses a witness that meets them. Expected results are those of spec/95_test_vectors.md (the vector's
name is in the test's name or docstring), or are computed by hand from the rule named.
-/
namespace Sys2Proof.Tests
open Sys2Proof Sys2Proof.Machine

/-! Helpers. -/

/-- A list of cells written as integers. -/
def cells (l : List Int) : List Word := l.map (fun v => (Word.ofInt? v).getD .zero)

/-- A capacity of `n` cells, as the vectors with `CAP = n` have. -/
def cap (n : Nat) (h1 : 1 ≤ n := by decide) (h2 : n ≤ 9223372036854775804 := by decide) : Config := ⟨n, h1, h2⟩

/-- A machine with an image, in a run state, with the caller's transactions. -/
def made (c : Config) (ctl : Ctl) (cause : Cause) (calls : List Call) (image : List Int) : State :=
  { State.reset with cfg := c, mem := .ofProgram (cells image), ctl := ctl, cause := cause, calls := calls }

/-- A loaded machine, its caller resuming. -/
def fresh (image : List Int) : State := made .default .fresh .none [.resume] image

/-- A machine awaiting input, its caller supplying `v`. -/
def awaiting (v : Int) (image : List Int) : State :=
  made .default .awaitingInput .none [.supplyInput ((Word.ofInt? v).getD .zero)] image

/-- The outcome is a next state of which `p` holds. -/
def nextSat (o : Host.Outcome State Fault Refusal) (p : State → Bool) : Bool :=
  match o with
  | .next t => p t
  | .fault _ => false
  | .refused _ => false

theorem exists_of_nextSat {o : Host.Outcome State Fault Refusal} {p : State → Bool} (h : nextSat o p = true) :
    ∃ t, o = .next t ∧ p t = true := by
  cases o with
  | next t => exact ⟨t, rfl, h⟩
  | fault r => cases h
  | refused r => cases h

def pos (v : Int) : Param := ⟨.position, (Word.ofInt? v).getD .zero⟩
def imm (v : Int) : Param := ⟨.immediate, (Word.ofInt? v).getD .zero⟩
def rel (v : Int) : Param := ⟨.relative, (Word.ofInt? v).getD .zero⟩

/-! WellFormed (R86): an ill-formed term for each check, which the check refuses. These are also the witnesses of
ImmediateWriteTargetIsRejected; the well-formed ones are those of DecodeOfEncode. -/

theorem test_wf_add : (Instr.add (pos 1) (pos 2) (imm 3)).wellFormed = false := by decide
theorem test_wf_mul : (Instr.mul (pos 1) (pos 2) (imm 3)).wellFormed = false := by decide
theorem test_wf_input : (Instr.input (imm 3)).wellFormed = false := by decide
theorem test_wf_lessThan : (Instr.lessThan (pos 1) (pos 2) (imm 3)).wellFormed = false := by decide
theorem test_wf_equals : (Instr.equals (pos 1) (pos 2) (imm 3)).wellFormed = false := by decide

theorem test_wf_legal :
    (Instr.add (imm 1) (rel 2) (rel 3)).wellFormed = true ∧ (Instr.input (rel 3)).wellFormed = true ∧
      (Instr.output (imm 1)).wellFormed = true ∧ (Instr.jumpIfTrue (imm 1) (imm 2)).wellFormed = true ∧
      Instr.halt.wellFormed = true := by decide

/-! Decoding (spec/95_test_vectors.md 2.1): each word is written out digit by digit. -/

theorem test_decode_add : decode (cells [21001, 5, 3, 2]) = .ok (.add (pos 5) (imm 3) (rel 2), []) := rfl
theorem test_decode_mul : decode (cells [22202, -2, -1, 0]) = .ok (.mul (rel (-2)) (rel (-1)) (rel 0), []) := rfl
theorem test_decode_input : decode (cells [3, 23]) = .ok (.input (pos 23), []) := rfl
theorem test_decode_output : decode (cells [204, -1, 99]) = .ok (.output (rel (-1)), cells [99]) := rfl
theorem test_decode_jumpIfTrue : decode (cells [2105, 1, -1]) = .ok (.jumpIfTrue (imm 1) (rel (-1)), []) := rfl
theorem test_decode_jumpIfFalse : decode (cells [1006, 24, 20]) = .ok (.jumpIfFalse (pos 24) (imm 20), []) := rfl
/-- "The trap in row 107". -/
theorem test_decode_lessThan : decode (cells [107, 0, 23, 24]) = .ok (.lessThan (imm 0) (pos 23) (pos 24), []) := rfl
theorem test_decode_equals : decode (cells [1008, 100, 16, 101]) = .ok (.equals (pos 100) (imm 16) (pos 101), []) := rfl
theorem test_decode_adjust : decode (cells [109, 19]) = .ok (.adjustRelativeBase (imm 19), []) := rfl
theorem test_decode_halt : decode (cells [99]) = .ok (.halt, []) := rfl

/-- The decode errors of spec/95_test_vectors.md 2.2, at the boundary of each check of R112 (D1 to D23). -/
def errorOf (v : Int) : Option DecodeError :=
  match decodeHeader ((Word.ofInt? v).getD .zero) with
  | .ok _ => none
  | .error e => some e

theorem test_decode_check1_2 : [0, 10, 98, 100, -1, -99, 100100].map errorOf =
    List.replicate 7 (some .illegalOpcode) := by decide
theorem test_decode_check3_5 : [100001, 200099, 1104, 199, 1099, 10099, 3099, 10005, 1109, 1103].map errorOf =
    List.replicate 10 (some .reservedEncoding) := by decide
theorem test_decode_check4 : [301, 30001].map errorOf = List.replicate 2 (some .illegalMode) := by decide
theorem test_decode_check6 : [10001, 11101, 11107, 103].map errorOf =
    List.replicate 4 (some .immediateWriteTarget) := by decide

/-- A host's word: `109, -1`, the second cell in two's complement (log 15), and one that is rejected. -/
theorem test_decodeTableWord :
    decodeTableWord 128 (109 + 18446744073709551615 * 18446744073709551616) = some (.adjustRelativeBase (imm (-1))) ∧
      decodeTableWord 64 1101 = some (.add (imm 0) (imm 0) (pos 0)) ∧ decodeTableWord 64 11101 = none := ⟨rfl, rfl, rfl⟩

/-- After reset the placed word runs in the very next step: `109, 7` leaves `rb = 7`. -/
theorem test_withFetchWord :
    nextSat (step (State.reset.withFetchWord 128 (109 + 7 * 18446744073709551616)))
      (fun t => t.rb = word 7 ∧ t.pc = word 2 ∧ t.ctl = .ready) = true := by decide

/-! One step of each instruction. -/

/-- A1. -/
theorem test_add_A1 : nextSat (step (fresh [1101, 7, -9, 5, 99, 0]))
    (fun t => t.mem.read 5 = word (-2) ∧ t.pc = word 4 ∧ t.ctl = .ready) = true := by decide
/-- A7: the overflow comes before the bad destination. -/
theorem test_add_A7 : nextSat (step (fresh [1101, 9223372036854775807, 1, -1, 99]))
    (fun t => t.cause = .arithmeticOverflow ∧ t.finfo = 1101 ∧ t.pc = word 0) = true := by decide
/-- M7: `-2^63` is a Word. -/
theorem test_mul_M7 : nextSat (step (fresh [1102, -4294967296, 2147483648, 0, 99]))
    (fun t => t.mem.read 0 = word (-9223372036854775808) ∧ t.pc = word 4) = true := by decide
/-- M5. -/
theorem test_mul_M5 : nextSat (step (fresh [1102, -9223372036854775808, -1, 0, 99]))
    (fun t => t.cause = .arithmeticOverflow ∧ t.finfo = 1102 ∧ t.mem.read 0 = word 1102) = true := by decide
/-- T1, first response. -/
theorem test_input_T1 : nextSat (step (fresh [3, 0, 99]))
    (fun t => t.ctl = .awaitingInput ∧ t.pc = word 0 ∧ t.responses = [.inputRequested] ∧ t.mem.read 0 = word 3) = true := by
  decide
/-- T1, `s(11)`. -/
theorem test_input_T1_supplied : nextSat (step (awaiting 11 [3, 0, 99]))
    (fun t => t.ctl = .ready ∧ t.pc = word 2 ∧ t.responses = [.ack] ∧ t.mem.read 0 = word 11) = true := by decide
/-- T3, first response. -/
theorem test_output_T3 : nextSat (step (fresh [104, 1, 104, 2, 99]))
    (fun t => t.responses = [.output (word 1)] ∧ t.pc = word 2 ∧ t.ctl = .ready) = true := by decide
/-- RB6, its second step: the address is `-1 + 0`. -/
theorem test_output_RB6 : nextSat (step { fresh [204, 0, 99] with rb := word (-1) })
    (fun t => t.cause = .readOutOfBounds ∧ t.finfo = -1 ∧ t.pc = word 0) = true := by decide
/-- R160: a negative condition is not 0. -/
theorem test_jumpIfTrue : nextSat (step (fresh [1105, -1, 7])) (fun t => t.pc = word 7) = true ∧
    nextSat (step (fresh [1105, 0, 7])) (fun t => t.pc = word 3) = true := by decide
/-- R161, R162: the target of a jump not taken is still read. -/
theorem test_jumpIfFalse : nextSat (step (fresh [1106, 0, 7])) (fun t => t.pc = word 7) = true ∧
    nextSat (step (fresh [106, 1, -5])) (fun t => t.cause = .readOutOfBounds ∧ t.finfo = -5) = true := by decide
/-- R170: signed, strict. -/
theorem test_lessThan : nextSat (step (fresh [1107, -1, 0, 0])) (fun t => t.mem.read 0 = word 1) = true ∧
    nextSat (step (fresh [1107, 5, 5, 0])) (fun t => t.mem.read 0 = word 0) = true := by decide
/-- R171. -/
theorem test_equals : nextSat (step (fresh [1108, -5, -5, 0])) (fun t => t.mem.read 0 = word 1) = true ∧
    nextSat (step (fresh [1108, 5, -5, 0])) (fun t => t.mem.read 0 = word 0) = true := by decide
/-- RB3: a Relative operand. -/
theorem test_adjust_RB3 : nextSat (step (fresh [209, 2, 99])) (fun t => t.rb = word 99 ∧ t.pc = word 2) = true := by decide
/-- RB8, its second step. -/
theorem test_adjust_RB8 : nextSat (step { fresh [109, 1, 99] with rb := word 9223372036854775807 })
    (fun t => t.cause = .arithmeticOverflow ∧ t.finfo = 109 ∧ t.rb = word 9223372036854775807) = true := by decide
/-- H1. -/
theorem test_halt_H1 : nextSat (step (fresh [99]))
    (fun t => t.ctl = .halted ∧ t.pc = word 0 ∧ t.responses = [.halted]) = true := by decide

/-! Witnesses: for each obligation with hypotheses, states and operands that meet them together, for each clause at a
boundary value. An obligation that is not named here has no hypothesis. -/

theorem witness_DecodeOfEncode :
    (Instr.mul (rel (-9223372036854775808)) (imm 9223372036854775807) (pos 0)).wellFormed = true ∧
      Instr.halt.wellFormed = true := by decide

theorem witness_EncodeOfDecode : ∃ c i rest, decode c = .ok (i, rest) :=
  ⟨cells [22202, -2, -1, 0, 7], .mul (rel (-2)) (rel (-1)) (rel 0), cells [7], rfl⟩

theorem witness_ImmediateWriteTargetIsRejected : (Instr.equals (rel 0) (pos 0) (imm 0)).wellFormed = false := by decide

/-- Each check of R112 at a word that passes the ones before it: -1; 0, 10 and 98; 100001; 301; 199; 103; and 22202, which
passes all. -/
theorem witness_DecodeChecksInOrder :
    (word (-1)).val < 0 ∧ (0 % 100 ∉ [1, 2, 3, 4, 5, 6, 7, 8, 9, 99]) ∧ (98 % 100 ∉ [1, 2, 3, 4, 5, 6, 7, 8, 9, 99]) ∧
      (100001 % 100 = Opcode.add.number ∧ 100000 ≤ 100001) ∧
      (301 % 100 = Opcode.add.number ∧ 301 < 100000 ∧ 1 ≤ Opcode.add.paramCount ∧ 2 < digit 301 (1 + 1)) ∧
      (199 % 100 = Opcode.halt.number ∧ 199 < 100000 ∧ Opcode.halt.paramCount < 1 ∧ digit 199 (1 + 1) ≠ 0) ∧
      (103 % 100 = Opcode.input.number ∧ digit 103 2 ≤ 2 ∧ digit 103 3 = 0 ∧ digit 103 4 = 0 ∧
        Opcode.input.writeParam = some 1 ∧ digit 103 (1 + 1) = 1) ∧
      (22202 % 100 = Opcode.mul.number ∧ digit 22202 2 ≤ 2 ∧ digit 22202 3 ≤ 2 ∧ digit 22202 4 ≤ 2 ∧
        Opcode.mul.paramCount = 3 ∧ Opcode.mul.writeParam = some 3 ∧ digit 22202 (3 + 1) ≠ 1) := by decide

/-- The four cells of the first instruction are all of memory, `CAP = 4`; and an Input awaiting its value. -/
theorem witness_StepRunsDecodedInstruction :
    (let s := made (cap 4) .fresh .none [.resume] [1101, 1, 1, 3]
     s.validAddr s.pc.val ∧ s.validAddr (s.pc.val + (Instr.add (imm 1) (imm 1) (pos 3)).length - 1) ∧ Running s ∧
       ∃ rest, decode (cellsAtPc s) = .ok (.add (imm 1) (imm 1) (pos 3), rest)) ∧
    (let s := awaiting 11 [3, 0, 99]
     s.validAddr s.pc.val ∧ s.validAddr (s.pc.val + (Instr.input (pos 0)).length - 1) ∧ s.ctl = .awaitingInput ∧
       s.calls.head? = some (.supplyInput (word 11)) ∧ ∃ rest, decode (cellsAtPc s) = .ok (.input (pos 0), rest)) :=
  ⟨⟨by decide, by decide, by decide, [], rfl⟩, ⟨by decide, by decide, rfl, rfl, cells [99, 0], rfl⟩⟩

/-- `pc = -1`, and `pc = CAP` (FB3). -/
theorem witness_FetchOutOfBoundsFaults :
    (let s : State := { made (cap 4) .ready .none [.resume] [1] with pc := word (-1) }
     Running s ∧ ¬ s.validAddr s.pc.val) ∧
    (let s : State := { made (cap 4) .ready .none [] [1] with pc := word 4 }
     Running s ∧ ¬ s.validAddr s.pc.val) := by decide

/-- FB6 and D3. -/
theorem witness_UnknownOpcodeFaults :
    (Running (fresh []) ∧ (fresh []).validAddr (fresh []).pc.val ∧ ((fresh []).mem.read 0).val = (0 : Nat) ∧
      0 % 100 ∉ [1, 2, 3, 4, 5, 6, 7, 8, 9, 99]) ∧
    (Running (fresh [98]) ∧ (fresh [98]).validAddr (fresh [98]).pc.val ∧ ((fresh [98]).mem.read 0).val = (98 : Nat) ∧
      98 % 100 ∉ [1, 2, 3, 4, 5, 6, 7, 8, 9, 99]) := by decide

theorem witness_DecodeFaultEntersFaulted : Running (fresh [301]) ∧ (fresh [301]).validAddr (fresh [301]).pc.val ∧
    decodeHeader ((fresh [301]).mem.read (fresh [301]).pc.val.toNat) = .error .illegalMode := ⟨by decide, by decide, rfl⟩

/-- FB1 (parameter 3) and FB5 (parameter 1). -/
theorem witness_ParameterFetchFaults :
    (let s := made (cap 3) .fresh .none [.resume] [1, 0, 0]
     Running s ∧ s.validAddr s.pc.val ∧
       decodeHeader (s.mem.read s.pc.val.toNat) = .ok ⟨.add, .position, .position, .position⟩ ∧
       3 ≤ Opcode.add.paramCount ∧ s.validAddr (s.pc.val + (3 : Nat) - 1) ∧ ¬ s.validAddr (s.pc.val + (3 : Nat))) ∧
    (let s := made (cap 1) .fresh .none [.resume] [3]
     Running s ∧ s.validAddr s.pc.val ∧
       decodeHeader (s.mem.read s.pc.val.toNat) = .ok ⟨.input, .position, .position, .position⟩ ∧
       1 ≤ Opcode.input.paramCount ∧ s.validAddr (s.pc.val + (1 : Nat) - 1) ∧ ¬ s.validAddr (s.pc.val + (1 : Nat))) :=
  ⟨⟨by decide, by decide, rfl, by decide, by decide, by decide⟩, ⟨by decide, by decide, rfl, by decide, by decide, by decide⟩⟩

/-- The first and the last address, and the two beside them; and the cell
beyond a program, after a load into a full memory and an Add that stores elsewhere. -/
theorem witness_MemReadRule :
    (let s := made (cap 4) .ready .none [] []
     (0 ≤ (0 : Int) ∧ (0 : Int) < s.cfg.memCapacity) ∧ (0 ≤ (3 : Int) ∧ (3 : Int) < s.cfg.memCapacity) ∧ (-1 : Int) < 0 ∧
       s.cfg.memCapacity ≤ (4 : Int)) ∧
    (let s := made (cap 5) .faulted .illegalOpcode [.load (cells [1101, 5, 6, 3]), .resume] [7, 7, 7, 7, 7]
     s.calls = .load (cells [1101, 5, 6, 3]) :: [.resume] ∧ (cells [1101, 5, 6, 3]).length ≤ s.cfg.memCapacity ∧
       (∀ p, Call.load p ∉ [Call.resume]) ∧ (cells [1101, 5, 6, 3]).length ≤ 4 ∧ 4 < s.cfg.memCapacity ∧
       (∃ t, runFor (1 + 1) s = .next t) ∧ ∀ j u, 1 ≤ j → j ≤ 1 → runFor j s = .next u → ¬ StoresAt u 4) := by
  refine ⟨by decide, rfl, by decide, fun p => by simp, by decide, by decide, ⟨_, rfl⟩, ?_⟩
  rintro j u h1 h2 hu ⟨i, dst, hf, hd, he, -⟩
  obtain rfl : j = 1 := by omega
  cases hu
  have h : Except.ok (Instr.add (imm 5) (imm 6) (pos 3)) = Except.ok (ε := Raised) i := Eq.trans rfl hf
  cases h
  cases hd
  exact absurd (Option.some.inj (Eq.trans rfl he : some (3 : Int) = some (4 : Int))) (by decide)

/-- The first and the last address, and the two beside them. -/
theorem witness_MemWriteRule :
    let s := made (cap 4) .ready .none [] []
    (0 ≤ (0 : Int) ∧ (0 : Int) < s.cfg.memCapacity) ∧ (0 ≤ (3 : Int) ∧ (3 : Int) < s.cfg.memCapacity) ∧ (-1 : Int) < 0 ∧
      s.cfg.memCapacity ≤ (4 : Int) := by decide

/-- Two orders of writing the same cells. -/
theorem witness_EqualReadsEqualMemory :
    let m := ((Memory.mk []).write 0 (word 5)).write 7 (word 6)
    let n := ((Memory.mk []).write 7 (word 6)).write 0 (word 5)
    m.wf ∧ n.wf ∧ ∀ a, m.read a = n.read a := ⟨by decide, by decide, fun _ => rfl⟩

/-- RB5, RB6, RB10, and the ends of memory. -/
theorem witness_ReadOperandByMode :
    let s : State := { made (cap 4) .ready .none [] [] with rb := word (-1) }
    let t : State := { made .default .ready .none [] [] with rb := word 9223372036854775807 }
    s.validAddr (word 0).val ∧ s.validAddr (word 3).val ∧ ¬ s.validAddr (word 4).val ∧ ¬ s.validAddr (word (-1)).val ∧
      s.validAddr (s.rb.val + (word 1).val) ∧ s.validAddr (s.rb.val + (word 4).val) ∧
      ¬ s.validAddr (s.rb.val + (word 0).val) ∧ ¬ t.validAddr (t.rb.val + (word 9223372036854775807).val) := by decide

/-- RB10, RB11: both ends of the range are reached. -/
theorem witness_WriteAddressByMode :
    writeAddress (word 0) { made .default .ready .none [] [] with rb := word 9223372036854775807 } (rel 9223372036854775807) =
      .ok 18446744073709551614 ∧
    writeAddress (word 0) { made .default .ready .none [] [] with rb := word (-9223372036854775808) }
      (rel (-9223372036854775808)) = .ok (-18446744073709551616) := ⟨rfl, rfl⟩

/-- A4 and M7, at the last address. -/
theorem witness_ArithmeticStoresExactResult :
    let s := made (cap 4) .ready .none [] []
    readOperand s (imm 9223372036854775807) = .ok (word 9223372036854775807) ∧
      readOperand s (imm (-9223372036854775808)) = .ok (word (-9223372036854775808)) ∧
      readOperand s (imm 0) = .ok (word 0) ∧
      effectiveAddress s (pos 3) = some 3 ∧ s.validAddr 3 ∧ s.validAddr s.pc.val ∧
      InWord ((word 9223372036854775807).val + (word (-9223372036854775808)).val) ∧
      InWord ((word 9223372036854775807).val + (word 0).val) ∧ InWord ((word (-9223372036854775808)).val * (word 0).val) :=
  ⟨rfl, rfl, rfl, rfl, by decide, by decide, by decide, by decide, by decide⟩

/-- Operands below, equal and above, negative ones among them. -/
theorem witness_ComparisonsStoreTruth :
    let s := made (cap 4) .ready .none [] []
    readOperand s (imm (-1)) = .ok (word (-1)) ∧ readOperand s (imm 0) = .ok (word 0) ∧
      effectiveAddress s (pos 0) = some 0 ∧ s.validAddr 0 ∧ s.validAddr s.pc.val ∧
      (word (-1)).val < (word 0).val ∧ (word (-1)).val = (word (-1)).val :=
  ⟨rfl, rfl, rfl, by decide, by decide, by decide, rfl⟩

/-- A destination outside memory among the writable ones. -/
theorem witness_InputSuspends : (pos (-1)).writable = true ∧ (rel 0).writable = true ∧ (fresh [3, -1]).ctl ≠ .awaitingInput := by
  decide

/-- The last address, and the one after it. -/
theorem witness_SuppliedInputCompletes :
    let s := made (cap 4) .awaitingInput .none [.supplyInput (word 5)] [3, 3]
    s.ctl = .awaitingInput ∧ s.calls = .supplyInput (word 5) :: [] ∧
      (effectiveAddress s (pos 3) = some 3 ∧ s.validAddr 3 ∧ s.validAddr s.pc.val) ∧
      (effectiveAddress s (pos 4) = some 4 ∧ ¬ s.validAddr 4) :=
  ⟨rfl, rfl, ⟨rfl, by decide, by decide⟩, ⟨rfl, by decide⟩⟩

theorem witness_OutputEmitsValue :
    readOperand (fresh [4, 0]) (pos 0) = .ok (word 4) ∧ (fresh [4, 0]).validAddr (fresh [4, 0]).pc.val := ⟨rfl, by decide⟩

/-- A condition that is not 0, a negative one; one that is 0; a target no instruction can be fetched at. -/
theorem witness_JumpsRedirect :
    let s := fresh [1105, -1, -7]
    readOperand s (imm (-1)) = .ok (word (-1)) ∧ readOperand s (imm 0) = .ok (word 0) ∧
      readOperand s (imm (-7)) = .ok (word (-7)) ∧ (word (-1)).val ≠ 0 ∧ (word 0).val = 0 ∧ s.validAddr s.pc.val :=
  ⟨rfl, rfl, rfl, by decide, rfl, by decide⟩

/-- The base reaches the greatest Word. -/
theorem witness_AdjustAddsToBase :
    let s : State := { fresh [109, 1] with rb := word 9223372036854775806 }
    readOperand s (imm 1) = .ok (word 1) ∧ InWord (s.rb.val + (word 1).val) ∧ s.validAddr s.pc.val :=
  ⟨rfl, by decide, by decide⟩

/-- A2, A3 with a destination outside memory, M5, RB8. -/
theorem witness_OverflowFaults :
    let s : State := { fresh [1101, 9223372036854775807, 1, -1] with rb := word 9223372036854775807 }
    readOperand s (imm 9223372036854775807) = .ok (word 9223372036854775807) ∧ readOperand s (imm 1) = .ok (word 1) ∧
      readOperand s (imm (-9223372036854775808)) = .ok (word (-9223372036854775808)) ∧
      readOperand s (imm (-1)) = .ok (word (-1)) ∧ (pos (-1)).writable = true ∧
      ¬ InWord ((word 9223372036854775807).val + (word 1).val) ∧
      ¬ InWord ((word (-9223372036854775808)).val + (word (-1)).val) ∧
      ¬ InWord ((word (-9223372036854775808)).val * (word (-1)).val) ∧ ¬ InWord (s.rb.val + (word 1).val) :=
  ⟨rfl, rfl, rfl, rfl, rfl, by decide, by decide, by decide, by decide⟩

/-- A12: the first operand; the second one alone; a jump not taken. -/
theorem witness_OperandFaultsInOrder :
    let s := made (cap 5) .ready .none [] [106, 1, 5]
    readOperand s (pos 5) = .error ⟨.readOutOfBounds, 5⟩ ∧
      (∃ x, readOperand s (imm 1) = .ok x ∧ readOperand s (pos 5) = .error ⟨.readOutOfBounds, 5⟩) :=
  ⟨rfl, word 1, rfl, rfl⟩

/-- A5, A13. -/
theorem witness_DestinationFaultIsLast :
    let s := made (cap 5) .ready .none [] [1101, 1, 1, 5, 99]
    readOperand s (imm 1) = .ok (word 1) ∧ (effectiveAddress s (pos 5) = some 5 ∧ ¬ s.validAddr 5) ∧
      (effectiveAddress s (pos (-1)) = some (-1) ∧ ¬ s.validAddr (-1)) ∧
      InWord ((word 1).val + (word 1).val) ∧ InWord ((word 1).val * (word 1).val) :=
  ⟨rfl, ⟨rfl, by decide⟩, ⟨rfl, by decide⟩, by decide, by decide⟩

/-- An Add and the completion of an Input that fault. -/
theorem witness_FaultCausesPerInstruction :
    (let s := fresh [1101, 1, 1, -1]
     (Instr.add (imm 1) (imm 1) (pos (-1))).wellFormed = true ∧ s.validAddr s.pc.val ∧ s.ctl ≠ .faulted ∧
       ∃ t, exec (.add (imm 1) (imm 1) (pos (-1))) s = .next t ∧ decide (t.ctl = .faulted) = true) ∧
    (let s := awaiting 7 [3, -1]
     (Instr.input (pos (-1))).wellFormed = true ∧ s.validAddr s.pc.val ∧ s.ctl ≠ .faulted ∧
       ∃ t, exec (.input (pos (-1))) s = .next t ∧ decide (t.ctl = .faulted) = true) :=
  ⟨⟨by decide, by decide, by decide, exists_of_nextSat (by decide)⟩,
    ⟨by decide, by decide, by decide, exists_of_nextSat (by decide)⟩⟩

/-- An Add and the completion of an Input, each with a cell that is not the destination. -/
theorem witness_StoringFrame :
    (let s := fresh [1101, 1, 1, 0]
     destination (.add (imm 1) (imm 1) (pos 0)) = some (pos 0) ∧ effectiveAddress s (pos 0) = some 0 ∧ ((1 : Nat) : Int) ≠ 0 ∧
       ∃ t, exec (.add (imm 1) (imm 1) (pos 0)) s = .next t ∧ decide (t.ctl ≠ .faulted) = true) ∧
    (let s := awaiting 7 [3, 0]
     destination (.input (pos 0)) = some (pos 0) ∧ effectiveAddress s (pos 0) = some 0 ∧
       ∃ t, exec (.input (pos 0)) s = .next t ∧ decide (t.ctl ≠ .faulted) = true) :=
  ⟨⟨rfl, rfl, by decide, exists_of_nextSat (by decide)⟩, ⟨rfl, rfl, exists_of_nextSat (by decide)⟩⟩

/-- Output, Halt, AdjustRelativeBase, a jump, and the first phase of an Input. -/
theorem witness_NonStoringFrame :
    (∃ t, exec (.output (imm 1)) (fresh []) = .next t ∧ decide (t.ctl ≠ .faulted) = true) ∧
    (∃ t, exec .halt (fresh []) = .next t ∧ decide (t.ctl ≠ .faulted) = true) ∧
    (∃ t, exec (.adjustRelativeBase (imm 1)) (fresh []) = .next t ∧ decide (t.ctl ≠ .faulted) = true) ∧
    (∃ t, exec (.jumpIfTrue (imm 1) (imm 1)) (fresh []) = .next t ∧ decide (t.ctl ≠ .faulted) = true) ∧
    (∃ t, exec (.input (pos 0)) (fresh []) = .next t ∧ decide (t.ctl ≠ .faulted) = true) ∧
    destination (.output (imm 1)) = none ∧ destination .halt = none ∧ (fresh []).ctl ≠ .awaitingInput :=
  ⟨exists_of_nextSat (by decide), exists_of_nextSat (by decide), exists_of_nextSat (by decide),
    exists_of_nextSat (by decide), exists_of_nextSat (by decide), rfl, rfl, by decide⟩

theorem witness_FaultsArePrecise :
    let s := fresh [1101, 9223372036854775807, 1, 0, 99]
    s.ctl ≠ .faulted ∧ (∀ p, s.calls.head? ≠ some (.load p)) ∧ ∃ t, step s = .next t ∧ decide (t.ctl = .faulted) = true :=
  ⟨by decide, fun p => by simp [fresh, made], exists_of_nextSat (by decide)⟩

/-! The invariant, of states the transactions meet. -/

/-- A machine that has been made satisfies the invariant. -/
theorem made_inv {c : Config} {ctl : Ctl} {cause : Cause} {calls : List Call} {image : List Int}
    (h0 : (cells image).length ≤ c.memCapacity) (h1 : ctl = .faulted ↔ cause ≠ .none)
    (h2 : ctl = .awaitingInput → ∃ dst, fetchInstr (made c ctl cause calls image) = .ok (.input dst))
    (h3 : ctl = .halted → 0 < c.memCapacity ∧ (made c ctl cause calls image).mem.read 0 = word 99)
    (h4 : cause ≠ .loadTooLarge := by decide) :
    StateInv (made c ctl cause calls image) where
  memCanonical := Memory.ofProgram_wf _
  memInRange := fun d hd => Nat.lt_of_lt_of_le (Memory.ofProgram_inRange _ d hd) h0
  awaitingAtInput := h2
  haltedAtHalt := fun h => ⟨⟨Int.le_refl 0, Int.ofNat_lt.2 (h3 h).1⟩, (h3 h).2⟩
  faultedIffCause := h1
  infoOnlyWhenFaulted := fun _ => rfl
  freshAtEntry := fun _ => ⟨rfl, rfl⟩
  infoWidth := fun _ => (by decide : -18446744073709551616 ≤ (0 : Int) ∧ (0 : Int) < 18446744073709551616)
  infoOfLoad := fun h => absurd h h4

theorem fresh_inv (calls : List Call) : StateInv (made (cap 4) .fresh .none calls []) :=
  made_inv (by simp [cells]) (by simp) (by simp) (by simp)

/-- An Input whose destination is the last cell but one, or lies outside memory. -/
theorem awaiting_inv (calls : List Call) : StateInv (made (cap 4) .awaitingInput .none calls [3, 0]) ∧
    StateInv (made (cap 4) .awaitingInput .none calls [3, 4]) :=
  ⟨made_inv (by simp [cells, cap]) (by simp) (fun _ => ⟨pos 0, by
      show fetchInstr (made (cap 4) .awaitingInput .none [] [3, 0]) = _
      decide⟩) (by simp),
    made_inv (by simp [cells, cap]) (by simp) (fun _ => ⟨pos 4, by
      show fetchInstr (made (cap 4) .awaitingInput .none [] [3, 4]) = _
      decide⟩) (by simp)⟩

theorem halted_inv (calls : List Call) : StateInv (made (cap 4) .halted .none calls [99]) :=
  made_inv (by simp [cells, cap]) (by simp) (by simp) (fun _ => ⟨by decide, rfl⟩)

theorem faulted_inv (calls : List Call) : StateInv (made (cap 4) .faulted .illegalOpcode calls []) :=
  made_inv (by simp [cells]) (by simp) (by simp) (by simp)

/-- For ResumeHangsOrRespondsOnce, StepKeepsInvariant and StepNeverStops too. -/
theorem ready_inv (calls : List Call) : StateInv (made (cap 4) .ready .none calls [104, 1]) :=
  made_inv (by simp [cells, cap]) (by simp) (by simp) (by simp)

/-- A fault of the program in a `resume` (FB6) and at the completion of an Input; the caller's two. The invariants are
`fresh_inv`, `awaiting_inv` and `ready_inv`. -/
theorem witness_FaultClasses :
    (let s := made (cap 4) .fresh .none [.resume] []
     StateInv s ∧ s.ctl ≠ .faulted ∧ Running s ∧ ∃ t, step s = .next t ∧ decide (t.ctl = .faulted) = true) ∧
    (let s := made (cap 4) .awaitingInput .none [.supplyInput (word 1)] [3, 4]
     StateInv s ∧ s.ctl = .awaitingInput ∧ ∃ t, step s = .next t ∧ decide (t.ctl = .faulted) = true) ∧
    (let s := made (cap 4) .ready .none [.supplyInput (word 1)] [104, 1]
     StateInv s ∧ s.ctl ≠ .awaitingInput ∧ s.ctl ≠ .faulted ∧ ∃ t, step s = .next t ∧ decide (t.ctl = .faulted) = true) ∧
    (let s := made (cap 4) .ready .none [.load (cells [1, 2, 3, 4, 5])] [104, 1]
     StateInv s ∧ s.ctl ≠ .faulted ∧ ∃ t, step s = .next t ∧ t.ctl = .faulted) :=
  ⟨⟨fresh_inv _, by decide, by decide, exists_of_nextSat (by decide)⟩,
    ⟨(awaiting_inv _).2, rfl, exists_of_nextSat (by decide)⟩,
    ⟨ready_inv _, by decide, by decide, exists_of_nextSat (by decide)⟩, ⟨ready_inv _, by decide, _, rfl, rfl⟩⟩

/-- Every clause of the table: `resume` and `supply_input` in each run state, `load`, `status` and `peek`. -/
theorem witness_TransitionTable (v : Word) (p : List Word) (a : Int) :
    ∀ c ∈ [Call.resume, .supplyInput v, .load p, .status, .peek a],
      ∃ s1 s2 s3 s4 s5, (StateInv s1 ∧ s1.ctl = .fresh ∧ s1.calls.head? = some c) ∧
        (StateInv s2 ∧ s2.ctl = .ready ∧ s2.calls.head? = some c) ∧
        (StateInv s3 ∧ s3.ctl = .awaitingInput ∧ s3.calls.head? = some c) ∧
        (StateInv s4 ∧ s4.ctl = .halted ∧ s4.calls.head? = some c) ∧
        (StateInv s5 ∧ s5.ctl = .faulted ∧ s5.calls.head? = some c) :=
  fun c _ => ⟨_, _, _, _, _, ⟨fresh_inv [c], rfl, rfl⟩, ⟨ready_inv [c], rfl, rfl⟩, ⟨(awaiting_inv [c]).1, rfl, rfl⟩,
    ⟨halted_inv [c], rfl, rfl⟩, ⟨faulted_inv [c], rfl, rfl⟩⟩

/-- And each of them is answered. -/
theorem witness_TransitionTable_step :
    (∃ t, step (made (cap 4) .ready .none [.resume] [104, 1]) = .next t) ∧
    (∃ t, step (made (cap 4) .awaitingInput .none [.supplyInput (word 1)] [3, 0]) = .next t) ∧
    (∃ t, step (made (cap 4) .halted .none [.load (cells [1, 2, 3, 4])] [99]) = .next t) ∧
    (∃ t, step (made (cap 4) .faulted .illegalOpcode [.status] []) = .next t) ∧
    (∃ t, step (made (cap 4) .fresh .none [.peek (-1)] []) = .next t) :=
  ⟨⟨_, rfl⟩, ⟨_, rfl⟩, ⟨_, rfl⟩, ⟨_, rfl⟩, ⟨_, rfl⟩⟩

theorem witness_HaltedResumeIsIdempotent :
    let s := made (cap 4) .halted .none [.resume, .status] [99]
    s.ctl = .halted ∧ s.calls = .resume :: [.status] := ⟨rfl, rfl⟩

theorem witness_SuspendedResumeChangesNothing :
    (let s := made (cap 4) .awaitingInput .none [.resume] [3, 0]
     s.calls = .resume :: [] ∧ s.ctl = .awaitingInput) ∧
    (let s := made (cap 4) .faulted .illegalOpcode [.resume] []
     s.calls = .resume :: [] ∧ s.ctl = .faulted) := ⟨⟨rfl, rfl⟩, ⟨rfl, rfl⟩⟩

/-- T2, T3, T4, and P6's last `s(4)`. -/
theorem witness_SupplyInputOutOfTurn : ∀ ctl ∈ [Ctl.fresh, .ready, .halted, .faulted],
    (made (cap 4) ctl .none [.supplyInput (word 4)] []).calls = .supplyInput (word 4) :: [] ∧
      (made (cap 4) ctl .none [.supplyInput (word 4)] []).ctl = ctl := fun _ _ => ⟨rfl, rfl⟩

/-- A program that fills memory, loaded into a Faulted machine; its last cell, and the first beyond it. -/
theorem witness_LoadResetsEverything :
    let s := made (cap 4) .faulted .illegalOpcode [.load (cells [1, 2, 3, 4])] [9]
    s.calls = .load (cells [1, 2, 3, 4]) :: [] ∧ (cells [1, 2, 3, 4]).length ≤ s.cfg.memCapacity ∧
      3 < (cells [1, 2, 3, 4]).length ∧ (cells [1, 2, 3, 4]).length ≤ 4 := ⟨rfl, by decide, by decide, by decide⟩

/-- T6: one cell too many. -/
theorem witness_LoadTooLargeFaults :
    let s := made (cap 4) .fresh .none [.load (cells [1, 2, 3, 4, 5])] []
    s.calls = .load (cells [1, 2, 3, 4, 5]) :: [] ∧ s.cfg.memCapacity < (cells [1, 2, 3, 4, 5]).length :=
  ⟨rfl, by decide⟩

/-- T6: the response, and what is latched. -/
theorem test_load_T6 : nextSat (step (made (cap 4) .fresh .none [.load (cells [1, 2, 3, 4, 5])] []))
    (fun t => t.ctl = .faulted ∧ t.finfo = 5 ∧ t.responses = [.fault .loadTooLarge 5]) = true := rfl

/-- T8: the two ends of the default memory, and the addresses beside them. -/
theorem witness_PeekAndStatusOnlyRead :
    let s := fun a => made .default .fresh .none [.peek a] [1, 0, 0, 0, 99]
    ((s 0).calls = .peek 0 :: [] ∧ (s 0).validAddr 0) ∧ (s 9223372036854775803).validAddr 9223372036854775803 ∧
      ¬ (s (-1)).validAddr (-1) ∧ ¬ (s 9223372036854775804).validAddr 9223372036854775804 ∧
      (made (cap 4) .halted .none [.status] [99]).calls = .status :: [] :=
  ⟨⟨rfl, by decide⟩, by decide, by decide, by decide, rfl⟩

/-- A step that answers nothing, and one that does. -/
theorem witness_OneResponseEndsOneTransaction :
    (∃ t, step (fresh [1105, 1, 0]) = .next t) ∧ ∃ t, step (fresh [104, 1]) = .next t := ⟨⟨_, rfl⟩, ⟨_, rfl⟩⟩

theorem witness_OutputComesFromOutput : ∃ t, step (fresh [104, 7]) = .next t ∧
    decide (t.responses = .output (word 7) :: (fresh [104, 7]).responses) = true := exists_of_nextSat (by decide)

/-- The step that executes Halt, and the one that repeats the response (H1). -/
theorem witness_HaltedResponseIsNormalEnd :
    (let s := made (cap 4) .fresh .none [.resume] [99]
     StateInv s ∧ ∃ t, step s = .next t ∧ decide (t.responses = .halted :: s.responses) = true) ∧
    (let s := made (cap 4) .halted .none [.resume] [99]
     StateInv s ∧ ∃ t, step s = .next t ∧ decide (t.responses = .halted :: s.responses) = true) :=
  ⟨⟨made_inv (by decide) (by decide) (fun h => nomatch h) (by decide), exists_of_nextSat (by decide)⟩,
    ⟨halted_inv _, exists_of_nextSat (by decide)⟩⟩

theorem witness_StepKeepsInvariant : StateInv (made (cap 4) .ready .none [.resume] [104, 1]) ∧
    ∃ t, step (made (cap 4) .ready .none [.resume] [104, 1]) = .next t := ⟨ready_inv _, _, rfl⟩

theorem witness_StepNeverStops : StateInv (made (cap 4) .awaitingInput .none [.supplyInput (word 1)] [3, 0]) :=
  (awaiting_inv _).1

theorem witness_OnlyAdjustWritesBase : (∀ p, (fresh [109, 19]).calls.head? ≠ some (.load p)) ∧
    ∃ t, step (fresh [109, 19]) = .next t ∧ decide (t.rb ≠ (fresh [109, 19]).rb) = true :=
  ⟨fun p => by simp [fresh, made], exists_of_nextSat (by decide)⟩

/-- S1: the instruction's own word changes; and an Input's destination. -/
theorem witness_MemoryChangesOnlyAtDestination :
    ((∀ p, (fresh [1, 0, 0, 0, 99]).calls.head? ≠ some (.load p)) ∧
      ∃ t, step (fresh [1, 0, 0, 0, 99]) = .next t ∧
        decide (t.mem.read 0 ≠ (fresh [1, 0, 0, 0, 99]).mem.read 0) = true) ∧
    ∃ t, step (awaiting 11 [3, 0, 99]) = .next t ∧ decide (t.mem.read 0 ≠ (awaiting 11 [3, 0, 99]).mem.read 0) = true :=
  ⟨⟨fun p => by simp [fresh, made], exists_of_nextSat (by decide)⟩, exists_of_nextSat (by decide)⟩

theorem witness_FreshOnlyBeforeFirstResume :
    let s := made (cap 4) .fresh .none [.status] [99]
    (∀ p, s.calls.head? ≠ some (.load p)) ∧ ∃ t, step s = .next t ∧ decide (t.ctl = .fresh) = true :=
  ⟨fun p => by simp [made], exists_of_nextSat (by decide)⟩

/-- P6: `resume`, `supply_input`, `peek` after the fault. -/
theorem witness_FaultedAbsorbs :
    let s := made (cap 4) .faulted .illegalOpcode [.resume, .supplyInput (word 4), .peek 0] []
    s.ctl = .faulted ∧ ∀ p, .load p ∉ s.calls := ⟨rfl, fun p => by simp [made]⟩

/-- H1: three times; and T4's `s(5)`. -/
theorem witness_HaltedAbsorbs :
    (let s := made (cap 4) .halted .none [.resume, .resume, .resume] [99]
     s.ctl = .halted ∧ (∀ c ∈ s.calls, c = .resume ∨ c = .status ∨ ∃ a, c = .peek a) ∧
       s.calls = List.replicate 3 .resume) ∧
    (let s := made (cap 4) .halted .none [.supplyInput (word 5)] [99]
     s.ctl = .halted ∧ ∀ p, s.calls.head? ≠ some (.load p)) :=
  ⟨⟨rfl, fun c hc => by simp [made] at hc; exact .inl hc, rfl⟩, ⟨rfl, fun p => by simp [made]⟩⟩

/-- A14: a run inside the capacity, to its end. -/
theorem witness_LargerCapacityIsInvisible :
    let s := made (cap 5) .fresh .none [.resume] [1, 1, 2, 3, 99]
    s.cfg.memCapacity ≤ Config.default.memCapacity ∧
      (∀ q ∈ s.calls, (∀ p, q ≠ .load p) ∧ ∀ a, q ≠ .peek a) ∧
      ∃ t, runFor 2 s = .next t ∧ decide (¬ t.cause.isBounds) = true :=
  ⟨by decide, fun q hq => by simp [made] at hq; simp [hq], exists_of_nextSat (by decide)⟩

/-- The loop at the entry, in a memory that it fills. -/
theorem witness_SelfLoopHangs :
    let s := made (cap 3) .fresh .none [.resume] [1105, -1, 0]
    Running s ∧ s.validAddr s.pc.val ∧ s.validAddr (s.pc.val + 2) ∧
      decode (cellsAtPc s) = .ok (.jumpIfTrue ⟨.immediate, word (-1)⟩ ⟨.immediate, s.pc⟩, cells [0]) ∧
      (word (-1)).val ≠ 0 := ⟨by decide, by decide, by decide, rfl, by decide⟩

/-- FB6 responds after one step, P2 after two. -/
theorem witness_ResumeHangsOrRespondsOnce :
    (let s := made (cap 4) .fresh .none [.resume] []
     StateInv s ∧ Running s ∧ ∃ r t, Responds s r t) ∧
    (let s := made (cap 7) .fresh .none [.resume] [1101, 104, 0, 4, 99, 77, 99]
     StateInv s ∧ Running s ∧ ∃ r t, Responds s r t) :=
  ⟨⟨fresh_inv _, by decide, _, _, 0, rfl, rfl, fun j hj => by
      obtain rfl := Nat.le_zero.1 hj
      exact ⟨_, rfl, rfl⟩⟩,
    made_inv (by decide) (by decide) (fun h => nomatch h) (by decide), by decide, _, _, 1, rfl, rfl, fun j hj => by
      rcases j with _ | _ | j
      · exact ⟨_, rfl, rfl⟩
      · exact ⟨_, rfl, rfl⟩
      · omega⟩

/-- P2, whose Add writes the cell at 4, the last one here; operands below, equal and above; and an Input whose destination is
the cell after it (R151). -/
theorem witness_StoreSeenByNextFetch :
    (let s := made (cap 5) .ready .none [.resume] [1101, 104, 0, 4, 99]
     readOperand s (imm 104) = .ok (word 104) ∧ readOperand s (imm 0) = .ok (word 0) ∧
       effectiveAddress s (pos 4) = some (s.pc.val + 4) ∧ s.validAddr s.pc.val ∧ s.validAddr (s.pc.val + 4) ∧
       InWord ((word 104).val + (word 0).val) ∧ InWord ((word 104).val * (word 0).val)) ∧
    (let s := made (cap 3) .awaitingInput .none [.supplyInput (word 99)] [3, 2]
     s.ctl = .awaitingInput ∧ s.calls = .supplyInput (word 99) :: [] ∧
       effectiveAddress s (pos 2) = some (s.pc.val + 2) ∧ s.validAddr s.pc.val ∧ s.validAddr (s.pc.val + 2)) :=
  ⟨⟨rfl, rfl, rfl, by decide, by decide, by decide, by decide⟩, ⟨rfl, rfl, rfl, by decide, by decide⟩⟩

/-- A1p beside A1. -/
theorem witness_PositionReadsAsImmediate :
    let s := fresh [1, 5, 6, 7, 99, 7, -9, 0]
    s.validAddr (word 5).val ∧ s.validAddr (word 6).val ∧
      ∃ t, exec (.add (pos 5) (pos 6) (pos 7)) s = .next t ∧ decide (t.ctl ≠ .faulted) = true :=
  ⟨by decide, by decide, exists_of_nextSat (by decide)⟩

theorem witness_BaseMattersOnlyToRelative :
    let i := Instr.add (pos 0) (imm 1) (pos 3)
    i.header.m1 ≠ .relative ∧ i.header.m2 ≠ .relative ∧ i.header.m3 ≠ .relative ∧ (∀ a, i ≠ .adjustRelativeBase a) ∧
      ∃ t, exec i (fresh [1, 0, 0, 0]) = .next t := ⟨by decide, by decide, by decide, fun a => by simp, _, rfl⟩

/-- The two addresses beside memory. -/
theorem witness_AccessKindsHaveTheirFaults :
    (-1 : Int) < 0 ∧ (made (cap 4) .ready .none [] []).cfg.memCapacity ≤ (4 : Int) := by decide

end Sys2Proof.Tests
end

section
/-!
PROOFS. Memory accesses, and what a step does to memory (spec/20_memory.md R55, R56; R65, R129): outside `load`, a step keeps
memory or writes the one cell it `StoresAt`. Settles O12 and O13.
-/
namespace Sys2Proof.Machine

/-! One access (R54 to R57). -/

theorem not_validAddr_iff (s : State) (a : Int) : ¬ s.validAddr a ↔ a < 0 ∨ s.cfg.memCapacity ≤ a := by
  simp only [State.validAddr]
  omega

theorem memRead_of_valid (k : Access) {s : State} {a : Int} (h : s.validAddr a) :
    memRead k s a = .ok (s.mem.read a.toNat) := (memRead_eq_ok _ _ _ _).2 ⟨h, rfl⟩

theorem memRead_of_outside (k : Access) {s : State} {a : Int} (h : a < 0 ∨ s.cfg.memCapacity ≤ a) :
    memRead k s a = .error ⟨k.cause, a⟩ :=
  (memRead_eq_error _ _ _ _).2 ⟨(not_validAddr_iff s a).2 h, rfl⟩

theorem memWrite_of_valid {s : State} {a : Int} (v : Word) (h : s.validAddr a) :
    memWrite s a v = .ok { s with mem := s.mem.write a.toNat v } := (memWrite_eq_ok _ _ _ _).2 ⟨h, rfl⟩

theorem memWrite_of_outside {s : State} {a : Int} (v : Word) (h : a < 0 ∨ s.cfg.memCapacity ≤ a) :
    memWrite s a v = .error ⟨.writeOutOfBounds, a⟩ :=
  (memWrite_eq_error _ _ _ _).2 ⟨(not_validAddr_iff s a).2 h, rfl⟩

/-- Settles O13: the write that `memWrite` makes is `Memory.write`, and its reads are those of `Memory.read_write`. -/
theorem memWriteRule : Obligations.MemWriteRule := by
  intro s a v
  refine ⟨fun h => ⟨s.mem.write a.toNat v, memWrite_of_valid v h, Memory.read_write_same _ _ _, fun b hb => ?_⟩,
    memWrite_of_outside v⟩
  have hne : a.toNat ≠ b := by omega
  exact Memory.read_write_other _ _ _ _ hne

/-! Memory after an instruction. -/

/-- The instruction `i`, from `s` to `t`, writes one cell of memory: the one its destination names. An Input does so only
where it was awaited. -/
def WritesDestination (i : Instr) (s t : State) : Prop :=
  ∃ (dst : Param) (a : Nat) (v : Word), destination i = some dst ∧ effectiveAddress s dst = some (a : Int) ∧
    s.validAddr a ∧ t.mem = s.mem.write a v ∧ ∀ p, i = .input p → s.ctl = .awaitingInput

theorem writesDestination_of_write {i : Instr} {s t : State} {dst : Param} {d : Int} {v : Word}
    (hdst : destination i = some dst) (hd : effectiveAddress s dst = some d) (hv : s.validAddr d)
    (hm : t.mem = s.mem.write d.toNat v) (hi : ∀ p, i = .input p → s.ctl = .awaitingInput) :
    WritesDestination i s t := by
  have hnat : (d.toNat : Int) = d := Int.toNat_of_nonneg hv.1
  exact ⟨dst, d.toNat, v, hdst, hnat.symm ▸ hd, hnat.symm ▸ hv, hm, hi⟩

/-- R129: an effect changes no memory but the destination's cell. -/
theorem effect_mem {i : Instr} {s t : State} (h : Effect i s t) : t.mem = s.mem ∨ WritesDestination i s t := by
  cases i with
  | add a b dst | mul a b dst | lessThan a b dst | equals a b dst =>
    obtain ⟨x, y, d, r, p, -, -, hd, -, hv, -, rfl⟩ := h
    exact .inr (writesDestination_of_write rfl hd hv rfl (by simp))
  | jumpIfTrue cond target | jumpIfFalse cond target =>
    obtain ⟨c, v, -, -, ⟨-, rfl⟩ | ⟨-, p, -, rfl⟩⟩ := h <;> exact .inl rfl
  | output a => obtain ⟨v, p, -, -, rfl⟩ := h; exact .inl rfl
  | adjustRelativeBase a => obtain ⟨x, r, p, -, -, -, rfl⟩ := h; exact .inl rfl
  | halt => cases h; exact .inl rfl
  | input dst =>
    rcases h with ⟨-, d, -, rfl⟩ | ⟨v, hs, d, p, hd, hv, -, rfl⟩
    · exact .inl rfl
    · exact .inr (writesDestination_of_write rfl hd hv rfl fun _ _ => ((suppliedValue_eq_some _ _).1 hs).1)

/-- An effect leaves the caller's list, or takes the transaction in progress off it. -/
theorem effect_calls {i : Instr} {s t : State} (h : Effect i s t) : t.calls <:+ s.calls := by
  have keep : s.calls <:+ s.calls := List.suffix_refl _
  have done : s.calls.tail <:+ s.calls := List.tail_suffix _
  cases i with
  | add a b dst | mul a b dst | lessThan a b dst | equals a b dst =>
    obtain ⟨x, y, d, r, p, -, -, -, -, -, -, rfl⟩ := h; exact keep
  | jumpIfTrue cond target | jumpIfFalse cond target =>
    obtain ⟨c, v, -, -, ⟨-, rfl⟩ | ⟨-, p, -, rfl⟩⟩ := h <;> exact keep
  | output a => obtain ⟨v, p, -, -, rfl⟩ := h; exact done
  | adjustRelativeBase a => obtain ⟨x, r, p, -, -, -, rfl⟩ := h; exact keep
  | halt => cases h; exact done
  | input dst =>
    rcases h with ⟨-, d, -, rfl⟩ | ⟨v, -, d, p, -, -, -, rfl⟩ <;> exact done

theorem exec_mem {i : Instr} {s t : State} (h : exec i s = .next t) : t.mem = s.mem ∨ WritesDestination i s t := by
  rcases exec_cases h with he | ⟨e, rfl, -⟩
  · exact effect_mem he
  · exact .inl (raise_mem s e)

theorem exec_calls {i : Instr} {s t : State} (h : exec i s = .next t) : t.calls <:+ s.calls := by
  rcases exec_cases h with he | ⟨e, rfl, -⟩
  · exact effect_calls he
  · exact List.tail_suffix _

/-! Memory after a step. -/

/-- A `load` takes itself off the caller's list, whether or not the program fits. -/
theorem load_calls (program : List Word) (s : State) : (load program s).calls = s.calls.tail := by
  by_cases hp : program.length ≤ s.cfg.memCapacity
  · rw [load_fits hp, respond_calls]
  · rw [load_tooLarge hp, raise_calls]

/-- A step issues no transaction of its own. -/
theorem step_calls {s t : State} (h : step s = .next t) : t.calls <:+ s.calls := by
  have done : s.calls.tail <:+ s.calls := List.tail_suffix _
  cases step_cases h with
  | ran i _ _ ht => exact exec_calls (s := { s with ctl := .ready }) ht
  | completed v dst _ _ _ ht => exact exec_calls ht
  | loaded p _ ht => rw [ht, load_calls]; exact done
  | idle _ _ ht => subst ht; exact List.suffix_refl _
  | fetchFault _ _ _ ht | repeated _ _ _ ht | outOfTurn _ _ _ ht | latched _ _ _ ht | peeked _ _ ht | asked _ ht =>
    subst ht; exact done

/-- R65, R129: outside `load`, memory changes only by the store of a step, at the cell it `StoresAt`. -/
theorem step_mem {s t : State} (h : step s = .next t) (hl : ∀ p, s.calls.head? ≠ some (.load p)) :
    t.mem = s.mem ∨ ∃ (a : Nat) (v : Word), StoresAt s a ∧ s.validAddr a ∧ t.mem = s.mem.write a v := by
  cases step_cases h with
  | ran i hr hf ht =>
    refine (exec_mem ht).imp_right ?_
    rintro ⟨dst, a, v, hdst, ha, hv, hm, hi⟩
    have notInput : ∀ p, i ≠ .input p := fun p hp => nomatch hi p hp
    exact ⟨a, v, ⟨i, dst, hf, hdst, ha, .inl ⟨hr, notInput⟩⟩, hv, hm⟩
  | completed w dst hw hc hf ht =>
    refine (exec_mem ht).imp_right ?_
    rintro ⟨dst', a, v, hdst, ha, hv, hm, -⟩
    exact ⟨a, v, ⟨.input dst, dst', hf, hdst, ha, .inr ⟨hc, w, hw⟩⟩, hv, hm⟩
  | loaded p hp _ => exact absurd hp (hl p)
  | idle _ _ ht | fetchFault _ _ _ ht | repeated _ _ _ ht | outOfTurn _ _ _ ht | latched _ _ _ ht | peeked _ _ ht
  | asked _ ht => subst ht; exact .inl rfl

/-- A cell that a step outside `load` does not store to reads as before. -/
theorem step_read {s t : State} {a : Nat} (h : step s = .next t) (hl : ∀ p, s.calls.head? ≠ some (.load p))
    (ha : ¬ StoresAt s a) : t.mem.read a = s.mem.read a := by
  rcases step_mem h hl with hm | ⟨b, v, hb, -, hm⟩
  · rw [hm]
  · have hne : b ≠ a := fun hba => ha (hba ▸ hb)
    rw [hm, Memory.read_write_other _ _ _ _ hne]

/-! Memory after a run. -/

/-- R7: no run changes the capacity. -/
theorem runFor_cfg {k : Nat} {s t : State} (h : runFor k s = .next t) : t.cfg = s.cfg :=
  runFor_induction (P := fun u => u.cfg = s.cfg) (fun _ _ hu hs => (step_cfg hs).trans hu) rfl h

/-- A cell that no step of a run without a `load` stores to reads at its end as at its beginning. -/
theorem runFor_read {k a : Nat} {s t : State} (h : runFor k s = .next t) (hl : ∀ p, .load p ∉ s.calls)
    (ha : ∀ j u, j < k → runFor j s = .next u → ¬ StoresAt u a) : t.mem.read a = s.mem.read a := by
  induction k generalizing s with
  | zero => cases h; rfl
  | succ k ih =>
    obtain ⟨u, hu, ht⟩ := runFor_succ.1 h
    have hread : u.mem.read a = s.mem.read a :=
      step_read hu (fun p hp => hl p (List.mem_of_mem_head? hp)) (ha 0 s k.succ_pos (runFor_zero s))
    have hlu : ∀ p, .load p ∉ u.calls := fun p hp => hl p ((step_calls hu).subset hp)
    have hau : ∀ j v, j < k → runFor j u = .next v → ¬ StoresAt v a := fun j v hj hv =>
      ha (j + 1) v (Nat.succ_lt_succ hj) (runFor_succ.2 ⟨u, hu, hv⟩)
    exact (ih ht hlu hau).trans hread

/-- A step whose transaction in progress is a `load`. -/
theorem step_load {s : State} {program : List Word} {rest : List Call} (h : s.calls = .load program :: rest) :
    step s = .next (load program s) := by
  simp [step, transact, h]

/-- R35: a cell beyond a program that fits reads 0 after its `load`. -/
theorem load_read_beyond {s : State} {program : List Word} {a : Nat} (hfit : program.length ≤ s.cfg.memCapacity)
    (ha : program.length ≤ a) : (load program s).mem.read a = .zero := by
  rw [load_fits hfit, respond_mem, Memory.read_ofProgram]
  exact List.getD_eq_default _ _ ha

/-- Settles O12: the first clause is the two outcomes of `memRead`; the second starts from the memory of the `load` and
carries the cell through the rest of the run by `runFor_read`. -/
theorem memReadRule : Obligations.MemReadRule := by
  refine ⟨fun k s a => ⟨memRead_of_valid k, memRead_of_outside k⟩, ?_⟩
  intro s t program rest k a hcalls hfit hrest hbeyond hcap hrun hstores kind
  have hload : step s = .next (load program s) := step_load hcalls
  obtain ⟨u, hu, ht⟩ := runFor_succ.1 hrun
  obtain rfl : load program s = u := Host.Outcome.next.inj (hload.symm.trans hu)
  have hnoload : ∀ p, .load p ∉ (load program s).calls := by simpa [load_calls, hcalls] using hrest
  have hnostore : ∀ j v, j < k → runFor j (load program s) = .next v → ¬ StoresAt v a := fun j v hj hv =>
    hstores (j + 1) v j.succ_pos hj (runFor_succ.2 ⟨_, hload, hv⟩)
  have hvalid : t.validAddr a := by
    rw [State.validAddr, runFor_cfg hrun]
    omega
  have hzero : t.mem.read a = .zero := (runFor_read ht hnoload hnostore).trans (load_read_beyond hfit hbeyond)
  exact (memRead_eq_ok kind t a _).2 ⟨hvalid, hzero⟩

end Sys2Proof.Machine
end

section
/-!
PROOFS. A word with an unknown opcode (spec/30_encoding.md R89): the decoder rejects it, the fetch raises the error with the
word, and the step inside `resume` is fault entry. Settles O9.
-/
namespace Sys2Proof

/-- R88: the numbers the table assigns. -/
theorem Opcode.number_mem (op : Opcode) : op.number ∈ [1, 2, 3, 4, 5, 6, 7, 8, 9, 99] := by
  cases op <;> decide

/-- R89: the numbers the table does not assign have no opcode. -/
theorem Opcode.ofNumber?_eq_none {n : Nat} (h : n ∉ [1, 2, 3, 4, 5, 6, 7, 8, 9, 99]) : Opcode.ofNumber? n = none :=
  Option.eq_none_iff_forall_ne_some.2 fun op hop => h ((Opcode.ofNumber?_eq_some n op).1 hop ▸ op.number_mem)

/-- R112 (2): the decoder looks the two lowest digits up before any other digit. -/
theorem decodeHeader_of_unknownOpcode {w : Word} {n : Nat} (hw : w.val = n)
    (h : n % 100 ∉ [1, 2, 3, 4, 5, 6, 7, 8, 9, 99]) : decodeHeader w = .error .illegalOpcode := by
  have hneg : ¬ w.val < 0 := by omega
  have hnat : w.val.toNat = n := by omega
  simp only [decodeHeader, if_neg hneg, hnat, Opcode.ofNumber?_eq_none h]

namespace Machine

/-- R112: the fetch raises a decode error with the word, before any raw parameter is read. -/
theorem fetchInstr_of_decodeError {s : State} {d : DecodeError} (hv : s.validAddr s.pc.val)
    (hd : decodeHeader (s.mem.read s.pc.val.toNat) = .error d) :
    fetchInstr s = .error ⟨causeOfDecodeError d, (s.mem.read s.pc.val.toNat).val⟩ :=
  (bind_eq_error _ _ _).2 (.inl ((fetchHeader_eq_error _ _).2 (.inr ⟨hv, d, hd, rfl⟩)))

/-- R110, R230: inside a `resume` that executes, a fetch that raises is fault entry. -/
theorem step_of_fetchError {s : State} {e : Raised} (hr : Running s) (hf : fetchInstr s = .error e) :
    step s = .next (s.raise e) := by
  simp only [step_of_running hr, runInstr, fetchInstr_with_ctl, hf, raise_with_ctl]

/-- Settles O9: check (2) of the decoder rejects the word, and its fetch error is fault entry. -/
theorem unknownOpcodeFaults : Obligations.UnknownOpcodeFaults := by
  intro s n hr hv hn hop
  have hdecode := decodeHeader_of_unknownOpcode hn hop
  have hfetch : fetchInstr s = .error ⟨.illegalOpcode, n⟩ := hn ▸ fetchInstr_of_decodeError hv hdecode
  exact step_of_fetchError hr hfetch

end Machine
end Sys2Proof
end

section
/-!
PROOFS. The address of a write parameter, mode by mode, and its range (spec/40_execution_cycle.md R119). Settles O16.
-/
namespace Sys2Proof.Machine

/-- R119: a Position parameter names its raw parameter. -/
@[simp] theorem effectiveAddress_position (s : State) (p : Word) : effectiveAddress s ⟨.position, p⟩ = some p.val := rfl

/-- R119, D4: a Relative parameter names the exact sum. -/
@[simp] theorem effectiveAddress_relative (s : State) (p : Word) :
    effectiveAddress s ⟨.relative, p⟩ = some (s.rb.val + p.val) := rfl

/-- Settles O16: `writeAddress` answers with the effective address, which is read off the mode and lies in the range of a
sum of two Words. -/
theorem writeAddressByMode : Obligations.WriteAddressByMode := by
  intro w s p
  refine ⟨?position, ?relative, ?range⟩
  case position => exact (writeAddress_eq_ok w s _ _).2 (effectiveAddress_position s p)
  case relative => exact (writeAddress_eq_ok w s _ _).2 (effectiveAddress_relative s p)
  case range =>
    intro q d hd
    have hbounds := effectiveAddress_bounds ((writeAddress_eq_ok w s q d).1 hd)
    omega

end Sys2Proof.Machine
end

section
/-!
PROOFS. What a comparison stores (spec/44_compare.md R170 to R172): a truth value is always a Word, so a comparison whose
operands resolve and whose destination is valid completes. Settles O18.
-/
namespace Sys2Proof.Machine

/-- R170, R171: the Word a comparison stores. -/
def truthWord (b : Bool) : Word := ⟨truthValue b, inWord_truthValue b⟩

@[simp] theorem truthWord_true : truthWord true = word 1 := rfl

@[simp] theorem truthWord_false : truthWord false = word 0 := rfl

/-- R172: the effect of a comparison by `test`. No range check stands in its way. -/
theorem stored_truthWord (test : Int → Int → Bool) {s : State} {a b dst : Param} {x y p : Word} {d : Int}
    (ha : readOperand s a = .ok x) (hb : readOperand s b = .ok y) (hd : effectiveAddress s dst = some d)
    (hv : s.validAddr d) (hp : p.val = s.pc.val + 4) :
    Stored (fun x y => truthValue (test x y)) a b dst s
      { s with mem := s.mem.write d.toNat (truthWord (test x.val y.val)), pc := p } :=
  ⟨x, y, d, _, p, ha, hb, hd, rfl, hv, hp, rfl⟩

/-- Settles O18: each comparison answers its effect, and which of the three tests is true is the trichotomy of the signed
integers. -/
theorem comparisonsStoreTruth : Obligations.ComparisonsStoreTruth := by
  intro s a b dst x y d ha hb hd hv hpc
  obtain ⟨p, hp, -⟩ := advance_of_valid hpc (n := 4) (by decide)
  refine ⟨truthWord (x.val < y.val), truthWord (x.val = y.val), truthWord (y.val < x.val), p, hp,
    exec_of_effect (stored_truthWord (fun x y => x < y) ha hb hd hv hp),
    exec_of_effect (stored_truthWord (fun x y => x = y) ha hb hd hv hp),
    exec_of_effect (stored_truthWord (fun x y => x < y) hb ha hd hv hp), ?below, ?equal, ?above⟩
  case below =>
    intro h
    simp [h, h.ne, h.not_gt]
  case equal =>
    intro h
    simp [h]
  case above =>
    intro h
    simp [h, h.ne', h.not_gt]

end Sys2Proof.Machine
end

section
/-!
PROOFS. The Halted machine (spec/46_halt.md R186): what one step makes of it, and that the transactions other than `load` and
`supply_input` leave it as it is however many of them there are. Settles O50.
-/
namespace Sys2Proof.Machine

/-- A claim that comes with an answer at every step comes with an answer to every run. -/
theorem runFor_answered {P : State → Prop} (keep : ∀ s, P s → ∃ t, step s = .next t ∧ P t) (k : Nat) {s : State}
    (h0 : P s) : ∃ t, runFor k s = .next t ∧ P t := by
  induction k generalizing s with
  | zero => exact ⟨s, runFor_zero s, h0⟩
  | succ k ih =>
    obtain ⟨u, hu, pu⟩ := keep s h0
    obtain ⟨t, ht, pt⟩ := ih pu
    exact ⟨t, runFor_succ.2 ⟨u, hu, ht⟩, pt⟩

/-! One step of a Halted machine. -/

/-- R194: `resume` of a Halted machine. -/
theorem step_halted_resume {s : State} {rest : List Call} (hc : s.ctl = .halted) (h : s.calls = .resume :: rest) :
    step s = .next (s.respond .halted) := by
  simp [step, transact, resume, h, hc]

/-- R197: `supply_input` to a Halted machine. -/
theorem step_halted_supplyInput {s : State} {v : Word} {rest : List Call} (hc : s.ctl = .halted)
    (h : s.calls = .supplyInput v :: rest) : step s = .next (s.raise ⟨.protocolViolation, 0⟩) := by
  simp [step, transact, supplyInput, h, hc]

/-- R186, R194, R197, R204, R205: outside `load`, a Halted machine is left alone or responds, and only `supply_input` makes
it fault. -/
theorem step_halted {s : State} (hc : s.ctl = .halted) (hl : ∀ p, s.calls.head? ≠ some (.load p)) :
    step s = .next s ∨ (∃ r, step s = .next (s.respond r)) ∨
      ∃ v, s.calls.head? = some (.supplyInput v) ∧ step s = .next (s.raise ⟨.protocolViolation, 0⟩) := by
  rcases h : s.calls with _ | ⟨c, rest⟩
  · exact .inl (by simp [step, transact, h, hc])
  · cases c with
    | load p => exact absurd (by rw [h]; rfl) (hl p)
    | resume => exact .inr (.inl ⟨_, step_halted_resume hc h⟩)
    | supplyInput v => exact .inr (.inr ⟨v, rfl, step_halted_supplyInput hc h⟩)
    | peek a => exact .inr (.inl ⟨peekResponse s a, by simp [step, transact, h]⟩)
    | status => exact .inr (.inl ⟨statusResponse s, by simp [step, transact, h]⟩)

/-! Runs of a Halted machine. -/

/-- The transactions that leave a Halted machine as it is. -/
def KeepsHalted (c : Call) : Prop := c = .resume ∨ c = .status ∨ ∃ a, c = .peek a

theorem not_keepsHalted_load (p : List Word) : ¬ KeepsHalted (.load p) := by simp [KeepsHalted]

theorem not_keepsHalted_supplyInput (v : Word) : ¬ KeepsHalted (.supplyInput v) := by simp [KeepsHalted]

/-- The Halted machine of `s`, with only transactions to come that leave it so. -/
structure RestsAs (s t : State) : Prop where
  ctl : t.ctl = .halted
  mem : t.mem = s.mem
  pc : t.pc = s.pc
  rb : t.rb = s.rb
  calls : ∀ c ∈ t.calls, KeepsHalted c

/-- A response takes nothing of the machine away. -/
theorem restsAs_respond {s t : State} (h : RestsAs s t) (r : Response) : RestsAs s (t.respond r) where
  ctl := h.ctl
  mem := h.mem
  pc := h.pc
  rb := h.rb
  calls c hc := h.calls c (List.mem_of_mem_tail hc)

/-- A Halted machine at rest answers a step and stays at rest. -/
theorem step_restsAs {s t : State} (h : RestsAs s t) : ∃ u, step t = .next u ∧ RestsAs s u := by
  have hhead : ∀ c, t.calls.head? = some c → KeepsHalted c := fun c hc => h.calls c (List.mem_of_mem_head? hc)
  have hnoload : ∀ p, t.calls.head? ≠ some (.load p) := fun p hp => not_keepsHalted_load p (hhead _ hp)
  rcases step_halted h.ctl hnoload with hs | ⟨r, hs⟩ | ⟨v, hv, -⟩
  · exact ⟨t, hs, h⟩
  · exact ⟨t.respond r, hs, restsAs_respond h r⟩
  · exact absurd (hhead _ hv) (not_keepsHalted_supplyInput v)

/-- R186: `k` resumes of a Halted machine are `k` responses `Halted`. -/
theorem runFor_halted_resumes {k : Nat} {s t : State} (hc : s.ctl = .halted) (h : s.calls = List.replicate k .resume)
    (hrun : runFor k s = .next t) : t.responses = List.replicate k .halted ++ s.responses := by
  induction k generalizing s with
  | zero => cases hrun; rfl
  | succ k ih =>
    obtain ⟨u, hu, ht⟩ := runFor_succ.1 hrun
    have hcalls : s.calls = .resume :: List.replicate k .resume := h
    obtain rfl : s.respond .halted = u := Host.Outcome.next.inj ((step_halted_resume hc hcalls).symm.trans hu)
    have hrest : (s.respond .halted).calls = List.replicate k .resume := by rw [respond_calls, hcalls]; rfl
    rw [ih (s := s.respond .halted) hc hrest ht, respond_responses, List.replicate_succ', List.append_assoc]
    rfl

/-- Settles O50: a Halted machine stays at rest through a run of any length, and a single step outside `load` can only
respond or make it fault. -/
theorem haltedAbsorbs : Obligations.HaltedAbsorbs := by
  constructor
  · intro k s hc hcalls
    have hrests : RestsAs s s := ⟨hc, rfl, rfl, rfl, hcalls⟩
    obtain ⟨t, hrun, ht⟩ := runFor_answered (fun _ => step_restsAs) k hrests
    exact ⟨t, hrun, ht.ctl, ht.mem, ht.pc, ht.rb, fun h => runFor_halted_resumes hc h hrun⟩
  · intro s hc hl
    rcases step_halted hc hl with hs | ⟨r, hs⟩ | ⟨v, -, hs⟩
    · exact ⟨s, hs, .inl hc⟩
    · exact ⟨s.respond r, hs, .inl hc⟩
    · exact ⟨_, hs, .inr (raise_ctl s _)⟩

end Sys2Proof.Machine
end

section
/-!
PROOFS. `resume` of a Halted machine (spec/47_host_transactions.md R194): the response, the transaction it takes off the caller's
list, and that memory plays no part in either. Settles O34.
-/
namespace Sys2Proof.Machine

/-- A response to the first of the caller's transactions, every field written out. -/
theorem respond_eq_of_calls_cons {s : State} {c : Call} {rest : List Call} (h : s.calls = c :: rest) (r : Response) :
    s.respond r = { s with calls := rest, responses := r :: s.responses } := by
  simp [State.respond, h]

/-- R194: what `resume` makes of a Halted machine, as a full next state. -/
theorem step_halted_resume_state {s : State} {rest : List Call} (hc : s.ctl = .halted) (h : s.calls = .resume :: rest) :
    step s = .next { s with calls := rest, responses := .halted :: s.responses } := by
  rw [step_halted_resume hc h, respond_eq_of_calls_cons h]

/-- Settles O34: the next state is that of one response, and being Halted inside `resume` does not depend on memory, so
the same holds under any other. -/
theorem haltedResumeIsIdempotent : Obligations.HaltedResumeIsIdempotent := by
  intro s m rest hc h
  exact ⟨step_halted_resume_state hc h, step_halted_resume_state (s := { s with mem := m }) hc h⟩

end Sys2Proof.Machine
end

section
/-!
PROOFS. The decoder and the encoder (spec/30_encoding.md, spec/40_execution_cycle.md R112): the six checks in their
order, what the digits of an encoded header are, and from the two that decoding and encoding are inverse. Settles O1 to
O6.
-/
namespace Sys2Proof

/-! The checks, over the digits of the three parameters. -/

/-- R83: the mode digits, that of parameter 1 first. -/
def modeDigits (n : Nat) : List Nat := (List.range' 1 3).map fun k => digit n (k + 1)

theorem Opcode.paramCount_le (op : Opcode) : op.paramCount ≤ 3 := by cases op <;> decide

/-- The digits check (4) of R112 looks at: those of the parameters an opcode has. -/
theorem any_take_modeDigits {c : Nat} (hc : c ≤ 3) (n : Nat) (p : Nat → Bool) :
    ((modeDigits n).take c).any p = true ↔ ∃ k, 1 ≤ k ∧ k ≤ c ∧ p (digit n (k + 1)) = true := by
  rw [modeDigits, ← List.map_take, List.take_range'_of_length_ge hc, List.any_map, List.any_eq_true]
  refine exists_congr fun k => ?_
  rw [List.mem_range'_1, Function.comp_apply, ← and_assoc]
  exact and_congr_left fun _ => by omega

/-- The digits check (5) of R112 looks at: those of the parameters an opcode does not have. -/
theorem any_drop_modeDigits {c : Nat} (hc : c ≤ 3) (n : Nat) (p : Nat → Bool) :
    ((modeDigits n).drop c).any p = true ↔ ∃ k, c < k ∧ k ≤ 3 ∧ p (digit n (k + 1)) = true := by
  rw [modeDigits, ← List.map_drop, List.drop_range', List.any_map, List.any_eq_true]
  refine exists_congr fun k => ?_
  rw [List.mem_range'_1, Function.comp_apply, ← and_assoc]
  exact and_congr_left fun _ => by omega

/-- Checks (3) to (6) of R112, on the digits of a word whose opcode is known. -/
def checkDigits (op : Opcode) (n : Nat) : Except DecodeError Header :=
  if n / 100000 ≠ 0 then .error .reservedEncoding
  else if ((modeDigits n).take op.paramCount).any (2 < ·) then .error .illegalMode
  else if ((modeDigits n).drop op.paramCount).any (· ≠ 0) then .error .reservedEncoding
  else if op.writeParam.any (fun k => digit n (k + 1) = 1) then .error .immediateWriteTarget
  else .ok ⟨op, Mode.ofDigit (digit n 2), Mode.ofDigit (digit n 3), Mode.ofDigit (digit n 4)⟩

/-- R112 (1): the sign is looked at before any digit. -/
theorem decodeHeader_of_neg {w : Word} (hw : w.val < 0) : decodeHeader w = .error .illegalOpcode := if_pos hw

/-- R112 (1), (2): past the checks of the sign and the opcode, the rest of the decoder is `checkDigits`. -/
theorem decodeHeader_of_opcode {w : Word} {n : Nat} {op : Opcode} (hw : w.val = n) (hop : n % 100 = op.number) :
    decodeHeader w = checkDigits op n := by
  have hneg : ¬ w.val < 0 := by omega
  have hnat : w.val.toNat = n := by omega
  simp only [decodeHeader, if_neg hneg, hnat, (Opcode.ofNumber?_eq_some _ _).2 hop]
  rfl

/-- R112 (3). -/
theorem checkDigits_of_high {op : Opcode} {n : Nat} (h : 100000 ≤ n) : checkDigits op n = .error .reservedEncoding :=
  if_pos (by omega)

/-- R112 (4). -/
theorem checkDigits_of_unknownMode {op : Opcode} {n : Nat} (hn : n < 100000)
    (h : ∃ k, 1 ≤ k ∧ k ≤ op.paramCount ∧ 2 < digit n (k + 1)) : checkDigits op n = .error .illegalMode := by
  have hhigh : ¬ n / 100000 ≠ 0 := by omega
  have hmode : ((modeDigits n).take op.paramCount).any (2 < ·) = true :=
    (any_take_modeDigits op.paramCount_le _ _).2 (by simpa using h)
  rw [checkDigits, if_neg hhigh, if_pos hmode]

section
variable {op : Opcode} {n : Nat} (hn : n < 100000) (hmodes : ∀ k, 1 ≤ k → k ≤ op.paramCount → digit n (k + 1) ≤ 2)
include hn hmodes

/-- R112 (3), (4): what is left to check where the digits above the fifth and the unknown modes are ruled out. -/
theorem checkDigits_of_knownModes :
    checkDigits op n =
      if ((modeDigits n).drop op.paramCount).any (· ≠ 0) then .error .reservedEncoding
      else if op.writeParam.any (fun k => digit n (k + 1) = 1) then .error .immediateWriteTarget
      else .ok ⟨op, Mode.ofDigit (digit n 2), Mode.ofDigit (digit n 3), Mode.ofDigit (digit n 4)⟩ := by
  have hhigh : ¬ n / 100000 ≠ 0 := by omega
  have hmode : ¬ ((modeDigits n).take op.paramCount).any (2 < ·) = true := fun h => by
    obtain ⟨k, h1, h2, h3⟩ := (any_take_modeDigits op.paramCount_le _ _).1 h
    exact absurd (hmodes k h1 h2) (by simpa using h3)
  rw [checkDigits, if_neg hhigh, if_neg hmode]

/-- R112 (5). -/
theorem checkDigits_of_extraDigit (h : ∃ k, op.paramCount < k ∧ k ≤ 3 ∧ digit n (k + 1) ≠ 0) :
    checkDigits op n = .error .reservedEncoding := by
  have hextra : ((modeDigits n).drop op.paramCount).any (· ≠ 0) = true :=
    (any_drop_modeDigits op.paramCount_le _ _).2 (by simpa using h)
  rw [checkDigits_of_knownModes hn hmodes, if_pos hextra]

variable (habsent : ∀ k, op.paramCount < k → k ≤ 3 → digit n (k + 1) = 0)
include habsent

/-- R112 (6): the last check, where the ones before it pass. -/
theorem checkDigits_of_noExtraDigit :
    checkDigits op n =
      if op.writeParam.any (fun k => digit n (k + 1) = 1) then .error .immediateWriteTarget
      else .ok ⟨op, Mode.ofDigit (digit n 2), Mode.ofDigit (digit n 3), Mode.ofDigit (digit n 4)⟩ := by
  have hextra : ¬ ((modeDigits n).drop op.paramCount).any (· ≠ 0) = true := fun h => by
    obtain ⟨k, h1, h2, h3⟩ := (any_drop_modeDigits op.paramCount_le _ _).1 h
    exact absurd (habsent k h1 h2) (by simpa using h3)
  rw [checkDigits_of_knownModes hn hmodes, if_neg hextra]

theorem checkDigits_of_immediateWrite (h : ∃ k, op.writeParam = some k ∧ digit n (k + 1) = 1) :
    checkDigits op n = .error .immediateWriteTarget := by
  obtain ⟨k, hk, hd⟩ := h
  have hwrite : op.writeParam.any (fun k => digit n (k + 1) = 1) = true := by simp [hk, hd]
  rw [checkDigits_of_noExtraDigit hn hmodes habsent, if_pos hwrite]

theorem checkDigits_of_legal (h : ∀ k, op.writeParam = some k → digit n (k + 1) ≠ 1) :
    checkDigits op n =
      .ok ⟨op, Mode.ofDigit (digit n 2), Mode.ofDigit (digit n 3), Mode.ofDigit (digit n 4)⟩ := by
  have hwrite : ¬ op.writeParam.any (fun k => digit n (k + 1) = 1) = true := by
    cases hk : op.writeParam with
    | none => simp
    | some k => simpa using h k hk
  rw [checkDigits_of_noExtraDigit hn hmodes habsent, if_neg hwrite]

end

/-- Where the checks of the modes pass, every mode digit is a mode's. -/
theorem digit_le_two {op : Opcode} {n k : Nat} (hmodes : ∀ k, 1 ≤ k → k ≤ op.paramCount → digit n (k + 1) ≤ 2)
    (habsent : ∀ k, op.paramCount < k → k ≤ 3 → digit n (k + 1) = 0) (h1 : 1 ≤ k) (h3 : k ≤ 3) :
    digit n (k + 1) ≤ 2 := by
  rcases Nat.lt_or_ge op.paramCount k with h | h
  · exact (habsent k h h3).trans_le (by decide)
  · exact hmodes k h1 h

/-- Settles O6: past the sign and the opcode each clause is one branch of `checkDigits`. -/
theorem decodeChecksInOrder : Obligations.DecodeChecksInOrder := by
  intro w
  refine ⟨decodeHeader_of_neg, fun n hw => ⟨decodeHeader_of_unknownOpcode hw, fun op hop => ?_⟩⟩
  rw [decodeHeader_of_opcode hw hop]
  refine ⟨checkDigits_of_high, checkDigits_of_unknownMode, fun hn hmodes =>
    ⟨checkDigits_of_extraDigit hn hmodes, fun habsent =>
      ⟨checkDigits_of_immediateWrite hn hmodes habsent, fun hwrite => ?_⟩⟩⟩
  have hle : ∀ k, 1 ≤ k → k ≤ 3 → digit n (k + 1) ≤ 2 := fun k => digit_le_two hmodes habsent
  exact ⟨_, checkDigits_of_legal hn hmodes habsent hwrite, rfl, Mode.digit_ofDigit (hle 1 (by decide) (by decide)),
    Mode.digit_ofDigit (hle 2 (by decide) (by decide)), Mode.digit_ofDigit (hle 3 (by decide) (by decide))⟩

/-! The digits of an encoded header. -/

/-- R83: the mode of parameter `k`, counted from 1. -/
def Header.modeOf (h : Header) (k : Nat) : Mode :=
  match k with
  | 1 => h.m1
  | 2 => h.m2
  | _ => h.m3

theorem Opcode.number_lt (op : Opcode) : op.number < 100 := by cases op <;> decide

theorem Mode.digit_le (m : Mode) : m.digit ≤ 2 := by cases m <;> decide

theorem Header.number_lt (h : Header) : h.number < 100000 := by
  have := h.op.number_lt
  have := h.m1.digit_le
  have := h.m2.digit_le
  have := h.m3.digit_le
  simp only [Header.number]
  omega

/-- R81: the two lowest digits of a header's word are its opcode's. -/
theorem Header.number_mod (h : Header) : h.number % 100 = h.op.number := by
  have := h.op.number_lt
  simp only [Header.number]
  omega

/-- R81, R83: the digit of weight `10^(k+1)` of a header's word is that of parameter `k`'s mode. -/
theorem Header.digit_number (h : Header) {k : Nat} (h1 : 1 ≤ k) (h3 : k ≤ 3) :
    digit h.number (k + 1) = (h.modeOf k).digit := by
  have := h.op.number_lt
  have := h.m1.digit_le
  have := h.m2.digit_le
  have := h.m3.digit_le
  interval_cases k <;> simp only [digit, Header.number, Header.modeOf] <;> omega

/-- R94: the parameters an opcode does not have are in mode Position. -/
def Header.AbsentPosition (h : Header) : Prop := ∀ k, h.op.paramCount < k → k ≤ 3 → h.modeOf k = .position

/-- R86: no write parameter is Immediate. -/
def Header.NoImmediateWrite (h : Header) : Prop := ∀ k, h.op.writeParam = some k → h.modeOf k ≠ .immediate

theorem Mode.digit_eq_one (m : Mode) : m.digit = 1 ↔ m = .immediate := by cases m <;> decide

theorem Opcode.writeParam_range {op : Opcode} {k : Nat} (h : op.writeParam = some k) : 1 ≤ k ∧ k ≤ 3 := by
  cases op <;> simp [Opcode.writeParam] at h <;> omega

/-- What is left to check of a header's word. -/
theorem decodeHeader_encodeHeader_eq (h : Header) : decodeHeader (encodeHeader h) = checkDigits h.op h.number :=
  decodeHeader_of_opcode rfl h.number_mod

section
variable {h : Header} (habsent : h.AbsentPosition)
include habsent

theorem Header.digits_checked :
    (∀ k, 1 ≤ k → k ≤ h.op.paramCount → digit h.number (k + 1) ≤ 2) ∧
      ∀ k, h.op.paramCount < k → k ≤ 3 → digit h.number (k + 1) = 0 := by
  refine ⟨fun k h1 h2 => ?_, fun k h1 h3 => ?_⟩
  · rw [h.digit_number h1 (h2.trans h.op.paramCount_le)]
    exact Mode.digit_le _
  · rw [h.digit_number (Nat.one_le_of_lt h1) h3, habsent k h1 h3]
    rfl

/-- R97: the word of a legal header decodes to it. -/
theorem decodeHeader_encodeHeader (hwrite : h.NoImmediateWrite) : decodeHeader (encodeHeader h) = .ok h := by
  obtain ⟨hmodes, hzero⟩ := Header.digits_checked habsent
  have hw : ∀ k, h.op.writeParam = some k → digit h.number (k + 1) ≠ 1 := fun k hk => by
    obtain ⟨h1, h3⟩ := Opcode.writeParam_range hk
    rw [h.digit_number h1 h3, Ne, Mode.digit_eq_one]
    exact hwrite k hk
  have hmode : ∀ k, 1 ≤ k → k ≤ 3 → Mode.ofDigit (digit h.number (k + 1)) = h.modeOf k := fun k h1 h3 => by
    rw [h.digit_number h1 h3, Mode.ofDigit_digit]
  rw [decodeHeader_encodeHeader_eq, checkDigits_of_legal h.number_lt hmodes hzero hw,
    hmode 1 (by decide) (by decide), hmode 2 (by decide) (by decide), hmode 3 (by decide) (by decide)]
  rfl

/-- R91: the word of a header with an Immediate write parameter is rejected by that name. -/
theorem decodeHeader_encodeHeader_of_immediateWrite (hwrite : ¬ h.NoImmediateWrite) :
    decodeHeader (encodeHeader h) = .error .immediateWriteTarget := by
  obtain ⟨hmodes, hzero⟩ := Header.digits_checked habsent
  simp only [Header.NoImmediateWrite, not_forall, not_not] at hwrite
  obtain ⟨k, hk, him⟩ := hwrite
  obtain ⟨h1, h3⟩ := Opcode.writeParam_range hk
  have hone : digit h.number (k + 1) = 1 := by rw [h.digit_number h1 h3, him]; rfl
  rw [decodeHeader_encodeHeader_eq, checkDigits_of_immediateWrite h.number_lt hmodes hzero ⟨k, hk, hone⟩]

end

/-! Instructions. -/

/-- R94: the encoder gives an absent parameter the digit 0. -/
theorem Instr.header_absentPosition (i : Instr) : i.header.AbsentPosition := by
  intro k h1 h3
  cases i <;> simp only [Instr.header, Opcode.paramCount] at h1 ⊢ <;> interval_cases k <;> rfl

theorem Param.writable_iff (p : Param) : p.writable = true ↔ p.mode ≠ .immediate := by
  unfold Param.writable
  cases p.mode <;> simp

/-- R85, R86: well-formed means that no write parameter is Immediate. -/
theorem Instr.wellFormed_iff (i : Instr) : i.wellFormed = true ↔ i.header.NoImmediateWrite := by
  unfold Header.NoImmediateWrite
  cases i <;> simp [Instr.wellFormed, Instr.header, Opcode.writeParam, Header.modeOf, Param.writable_iff]

theorem Instr.length_rawParams (i : Instr) : i.rawParams.length = i.header.op.paramCount := by cases i <;> rfl

/-- The first step of decoding a list of cells that is long enough. -/
theorem decode_cons {w : Word} {ps : List Word} {h : Header} (hw : decodeHeader w = .ok h)
    (hlen : h.op.paramCount ≤ ps.length) :
    decode (w :: ps) =
      .ok (h.instr (ps.getD 0 .zero) (ps.getD 1 .zero) (ps.getD 2 .zero), ps.drop h.op.paramCount) := by
  simp only [decode, hw, if_neg (Nat.not_lt.2 hlen)]

/-- R80: an instruction is its header and its raw parameters, read from the cells after its word. -/
theorem Instr.instr_header_rawParams (i : Instr) (rest : List Word) :
    i.header.instr ((i.rawParams ++ rest).getD 0 .zero) ((i.rawParams ++ rest).getD 1 .zero)
      ((i.rawParams ++ rest).getD 2 .zero) = i := by
  cases i <;> rfl

/-- Settles O2: the word decodes to the header, and the header with the cells after the word is the instruction. -/
theorem decodeOfEncode : Obligations.DecodeOfEncode := by
  intro i rest hwf
  have hword : decodeHeader i.word = .ok i.header :=
    decodeHeader_encodeHeader i.header_absentPosition (i.wellFormed_iff.1 hwf)
  have hlen : i.header.op.paramCount ≤ (i.rawParams ++ rest).length := by
    rw [List.length_append, i.length_rawParams]
    exact Nat.le_add_right _ _
  rw [encode, List.cons_append, decode_cons hword hlen, Instr.instr_header_rawParams, ← i.length_rawParams,
    List.drop_left]

/-- Settles O4: the word is rejected, and decoding goes no further. -/
theorem immediateWriteTargetIsRejected : Obligations.ImmediateWriteTargetIsRejected := by
  intro i rest hwf
  have hwrite : ¬ i.header.NoImmediateWrite := by simp [← i.wellFormed_iff, hwf]
  have hword : decodeHeader i.word = .error .immediateWriteTarget :=
    decodeHeader_encodeHeader_of_immediateWrite i.header_absentPosition hwrite
  simp only [encode, List.cons_append, decode, hword]

/-- What a successful decode found: the word's header, the raw parameters after it, and the cells left. -/
theorem decode_eq_ok {cells rest : List Word} {i : Instr} (h : decode cells = .ok (i, rest)) :
    ∃ w ps hd, cells = w :: ps ∧ decodeHeader w = .ok hd ∧ hd.op.paramCount ≤ ps.length ∧
      hd.instr (ps.getD 0 .zero) (ps.getD 1 .zero) (ps.getD 2 .zero) = i ∧ ps.drop hd.op.paramCount = rest := by
  unfold decode at h
  split at h
  · cases h
  next w ps =>
  split at h
  · cases h
  next hd hw =>
  split at h
  · cases h
  next hlen =>
  cases h
  exact ⟨w, ps, hd, rfl, hw, Nat.le_of_not_lt hlen, rfl, rfl⟩

/-- R80: the raw parameters of a header's instruction are as many of the given ones as its opcode has. -/
theorem Header.rawParams_instr (h : Header) (p1 p2 p3 : Word) :
    (h.instr p1 p2 p3).rawParams = [p1, p2, p3].take h.op.paramCount := by
  obtain ⟨op, m1, m2, m3⟩ := h
  cases op <;> rfl

/-- The first `c ≤ 3` elements of a list that has them, read one by one. -/
theorem take_getD_three {c : Nat} (hc : c ≤ 3) {ps : List Word} (h : c ≤ ps.length) :
    [ps.getD 0 .zero, ps.getD 1 .zero, ps.getD 2 .zero].take c = ps.take c := by
  rcases ps with _ | ⟨a, _ | ⟨b, _ | ⟨d, ps⟩⟩⟩ <;> simp only [List.length_cons, List.length_nil] at h <;>
    interval_cases c <;> rfl

/-- Settles O3: the header is legal and the word its encoding, and the raw parameters are the cells after it. -/
theorem encodeOfDecode : Obligations.EncodeOfDecode := by
  intro cells rest i h
  obtain ⟨w, ps, hd, rfl, hw, hlen, rfl, rfl⟩ := decode_eq_ok h
  obtain ⟨hheader, hwf⟩ := decodeHeader_legal hw (ps.getD 0 .zero) (ps.getD 1 .zero) (ps.getD 2 .zero)
  refine ⟨hwf, ?_⟩
  rw [encode, Instr.word, hheader, ← decodeHeader_word hw, Header.rawParams_instr,
    take_getD_three hd.op.paramCount_le hlen, List.cons_append, List.take_append_drop]

/-! The table of legal words (R97). -/

/-- R86, R94: the modes of parameter `k` of an opcode. -/
def legalModes (op : Opcode) (k : Nat) : List Mode :=
  if op.paramCount < k then [.position]
  else if op.writeParam = some k then [.position, .relative]
  else [.position, .immediate, .relative]

/-- R97: the headers of an opcode, in the order of the table. -/
def legalHeaders (op : Opcode) : List Header :=
  (legalModes op 3).flatMap fun m3 => (legalModes op 2).flatMap fun m2 => (legalModes op 1).map fun m1 => ⟨op, m1, m2, m3⟩

theorem mem_legalModes (op : Opcode) (k : Nat) (m : Mode) :
    m ∈ legalModes op k ↔ (op.paramCount < k → m = .position) ∧ (op.writeParam = some k → m ≠ .immediate) := by
  have absent : op.paramCount < k → op.writeParam ≠ some k := by
    intro h hk
    cases op <;> simp [Opcode.paramCount, Opcode.writeParam] at h hk <;> omega
  unfold legalModes
  split
  · next h => simp [h, absent h]
  · next h =>
    split
    · next hk => cases m <;> simp [h, hk]
    · next hk => cases m <;> simp [h, hk]

theorem mem_legalHeaders (op : Opcode) (h : Header) :
    h ∈ legalHeaders op ↔ h.op = op ∧ h.AbsentPosition ∧ h.NoImmediateWrite := by
  obtain ⟨op', m1, m2, m3⟩ := h
  have modes : ∀ op, (m1 ∈ legalModes op 1 ∧ m2 ∈ legalModes op 2 ∧ m3 ∈ legalModes op 3) ↔
      Header.AbsentPosition ⟨op, m1, m2, m3⟩ ∧ Header.NoImmediateWrite ⟨op, m1, m2, m3⟩ := by
    intro op
    simp only [mem_legalModes]
    constructor
    · rintro ⟨⟨a1, w1⟩, ⟨a2, w2⟩, a3, w3⟩
      refine ⟨fun k hk h3 => ?_, fun k hk => ?_⟩
      · have h1 : 1 ≤ k := Nat.one_le_of_lt hk
        interval_cases k
        exacts [a1 hk, a2 hk, a3 hk]
      · obtain ⟨h1, h3⟩ := Opcode.writeParam_range hk
        interval_cases k
        exacts [w1 hk, w2 hk, w3 hk]
    · rintro ⟨a, w⟩
      exact ⟨⟨fun h => a 1 h (by decide), w 1⟩, ⟨fun h => a 2 h (by decide), w 2⟩,
        fun h => a 3 h (by decide), w 3⟩
  simp only [legalHeaders, List.mem_flatMap, List.mem_map, Header.mk.injEq]
  constructor
  · rintro ⟨_, h3, _, h2, _, h1, rfl, rfl, rfl, rfl⟩
    exact ⟨rfl, (modes op).1 ⟨h1, h2, h3⟩⟩
  · rintro ⟨rfl, h⟩
    obtain ⟨h1, h2, h3⟩ := (modes _).2 h
    exact ⟨m3, h3, m2, h2, m1, h1, rfl, rfl, rfl, rfl⟩

/-- R97: the table is the numbers of the legal headers. -/
theorem legalWords_eq (op : Opcode) : legalWords op = (legalHeaders op).map fun h => (h.number : Int) := by
  cases op <;> rfl

/-- The headers that words decode to are the legal ones. -/
theorem decodeHeader_eq_ok (w : Word) (h : Header) :
    decodeHeader w = .ok h ↔ w = encodeHeader h ∧ h.AbsentPosition ∧ h.NoImmediateWrite := by
  constructor
  · intro hw
    obtain ⟨hheader, hwf⟩ := decodeHeader_legal hw .zero .zero .zero
    exact ⟨decodeHeader_word hw, hheader ▸ Instr.header_absentPosition _, hheader ▸ (Instr.wellFormed_iff _).1 hwf⟩
  · rintro ⟨rfl, ha, hn⟩
    exact decodeHeader_encodeHeader ha hn

/-- Settles O5: both sides say that the word is the number of a legal header of the opcode. -/
theorem legalWordsAreTheTable : Obligations.LegalWordsAreTheTable := by
  intro w op
  rw [legalWords_eq, List.mem_map]
  refine exists_congr fun h => ?_
  rw [decodeHeader_eq_ok, mem_legalHeaders, Word.ext_iff, eq_comm (a := w.val)]
  exact ⟨fun ⟨⟨hw, hlegal⟩, hop⟩ => ⟨⟨hop, hlegal⟩, hw⟩, fun ⟨⟨hop, hlegal⟩, hw⟩ => ⟨⟨hw, hlegal⟩, hop⟩⟩

/-- Settles O1: the decoder, run on the cells. -/
theorem specWordsDecode : Obligations.SpecWordsDecode := ⟨rfl, rfl, rfl, rfl, rfl, rfl, rfl, rfl, rfl, rfl⟩

end Sys2Proof
end

section
/-!
PROOFS. What each instruction does where no check fails, and its fault where one does (spec/40_execution_cycle.md R118
to R126 and the files 41 to 46). Settles O15, O17, O19 to O27, O54 and O57.
-/
namespace Sys2Proof.Machine

/-! One access, one operand. -/

/-- Settles O57: the outcome of each access outside memory. -/
theorem accessKindsHaveTheirFaults : Obligations.AccessKindsHaveTheirFaults := fun _ _ v h =>
  ⟨memRead_of_outside .fetch h, memRead_of_outside .read h, memWrite_of_outside v h, rfl, rfl, rfl⟩

/-- R118: a parameter that names an address is read there. -/
theorem readOperand_of_address {s : State} {p : Param} {a : Int} (h : effectiveAddress s p = some a) :
    readOperand s p = memRead .read s a := by
  simp only [readOperand, h]

@[simp] theorem readOperand_immediate (s : State) (p : Word) : readOperand s ⟨.immediate, p⟩ = .ok p := rfl

/-- R118: the value at a valid address. -/
theorem readOperand_of_valid {s : State} {p : Param} {a : Int} (h : effectiveAddress s p = some a)
    (hv : s.validAddr a) : readOperand s p = .ok (s.mem.read a.toNat) :=
  (readOperand_of_address h).trans (memRead_of_valid .read hv)

/-- R118: the fault of an address outside memory. -/
theorem readOperand_of_invalid {s : State} {p : Param} {a : Int} (h : effectiveAddress s p = some a)
    (hv : ¬ s.validAddr a) : readOperand s p = .error ⟨.readOutOfBounds, a⟩ :=
  (readOperand_of_address h).trans (memRead_of_outside .read ((not_validAddr_iff s a).1 hv))

/-- Settles O15: Position and Relative parameters are read at their effective addresses. -/
theorem readOperandByMode : Obligations.ReadOperandByMode := fun s p =>
  ⟨readOperand_immediate s p,
    readOperand_of_valid (effectiveAddress_position s p), readOperand_of_invalid (effectiveAddress_position s p),
    readOperand_of_valid (effectiveAddress_relative s p), readOperand_of_invalid (effectiveAddress_relative s p)⟩

/-! Completion. -/

/-- Format F3RRW completes where its operands resolve, its result is a Word and its destination a valid address. -/
theorem stored_of_checks (f : Int → Int → Int) {s : State} {a b dst : Param} {x y : Word} {d : Int}
    (ha : readOperand s a = .ok x) (hb : readOperand s b = .ok y) (hd : effectiveAddress s dst = some d)
    (hv : s.validAddr d) (hpc : s.validAddr s.pc.val) (hr : InWord (f x.val y.val)) :
    ∃ r p : Word, r.val = f x.val y.val ∧ p.val = s.pc.val + 4 ∧
      Stored f a b dst s { s with mem := s.mem.write d.toNat r, pc := p } := by
  obtain ⟨p, hp, -⟩ := advance_of_valid hpc (n := 4) (by decide)
  exact ⟨⟨_, hr⟩, p, rfl, hp, x, y, d, _, p, ha, hb, hd, rfl, hv, hp, rfl⟩

/-- Settles O17: the effect of format F3RRW, for the sum and for the product. -/
theorem arithmeticStoresExactResult : Obligations.ArithmeticStoresExactResult := by
  intro s a b dst x y d ha hb hd hv hpc
  constructor
  · intro hsum
    obtain ⟨r, p, hr, hp, h⟩ := stored_of_checks (fun x y => x + y) ha hb hd hv hpc hsum
    exact ⟨r, p, hr, hp, exec_of_effect h⟩
  · intro hprod
    obtain ⟨r, p, hr, hp, h⟩ := stored_of_checks (fun x y => x * y) ha hb hd hv hpc hprod
    exact ⟨r, p, hr, hp, exec_of_effect h⟩

/-- R150: only an awaiting machine has a value supplied to it. -/
theorem suppliedValue_of_not_awaiting {s : State} (h : s.ctl ≠ .awaitingInput) : suppliedValue s = none :=
  Option.eq_none_iff_forall_ne_some.2 fun v hv => h ((suppliedValue_eq_some s v).1 hv).1

/-- R150: an Input that has no value supplied suspends, wherever its destination lies. -/
theorem exec_input_suspends {s : State} {dst : Param} (hs : suppliedValue s = none) (hw : dst.writable = true) :
    exec (.input dst) s = .next (State.respond { s with ctl := .awaitingInput } .inputRequested) := by
  obtain ⟨d, hd⟩ := writable_effectiveAddress (s := s) hw
  exact exec_of_effect (.inl ⟨hs, d, hd, rfl⟩)

/-- R151: the completion of an Input at a valid address. -/
theorem exec_input_of_valid {s : State} {dst : Param} {v : Word} {d : Int} (hs : suppliedValue s = some v)
    (hd : effectiveAddress s dst = some d) (hv : s.validAddr d) (hpc : s.validAddr s.pc.val) :
    ∃ p : Word, p.val = s.pc.val + 2 ∧ exec (.input dst) s =
      .next (State.respond { s with mem := s.mem.write d.toNat v, pc := p, ctl := .ready } .ack) := by
  obtain ⟨p, hp, -⟩ := advance_of_valid hpc (n := 2) (by decide)
  exact ⟨p, hp, exec_of_effect (.inr ⟨v, hs, d, p, hd, hv, hp, rfl⟩)⟩

/-- R125: a computation that raises is fault entry. -/
theorem commit_of_error {s : State} {r : Except Raised State} {e : Raised} (h : r = .error e) :
    commit s r = .next (s.raise e) := (commit_eq_next _ _ _).2 (.inr ⟨e, h, rfl⟩)

/-- R151: the completion of an Input at an address outside memory. -/
theorem exec_input_of_invalid {s : State} {dst : Param} {v : Word} {d : Int} (hs : suppliedValue s = some v)
    (hd : effectiveAddress s dst = some d) (hv : ¬ s.validAddr d) :
    exec (.input dst) s = .next (s.raise ⟨.writeOutOfBounds, d⟩) := by
  change execInput dst s = _
  simp only [execInput, hs]
  exact commit_of_error ((inputCompletes_eq_error _ _ _ _ _).2 (.inr ⟨d, hd, .inl ⟨hv, rfl⟩⟩))

/-- Settles O20: the two outcomes of an Input whose value is supplied. -/
theorem suppliedInputCompletes : Obligations.SuppliedInputCompletes := by
  intro s dst v d rest hc hl hd
  have hs : suppliedValue s = some v := (suppliedValue_eq_some s v).2 ⟨hc, rest, hl⟩
  refine ⟨fun hv hpc => ?_, exec_input_of_invalid hs hd⟩
  obtain ⟨p, hp, h⟩ := exec_input_of_valid hs hd hv hpc
  refine ⟨p, hp, h.trans ?_⟩
  simp only [State.respond, hl, List.tail_cons]

/-- Settles O21: the effect of Output. -/
theorem outputEmitsValue : Obligations.OutputEmitsValue := by
  intro s a v hv hpc
  obtain ⟨p, hp, -⟩ := advance_of_valid hpc (n := 2) (by decide)
  exact ⟨p, hp, exec_of_effect ⟨v, p, hv, hp, rfl⟩⟩

theorem isNonZero_eq_true (c : Word) : isNonZero c = true ↔ c.val ≠ 0 := decide_eq_true_iff

theorem isNonZero_eq_false (c : Word) : isNonZero c = false ↔ c.val = 0 := by simp [isNonZero]

/-- Settles O22: the effect of a jump, taken where its test of the condition is true. -/
theorem jumpsRedirect : Obligations.JumpsRedirect := by
  intro s cond target c t hc ht
  have taken : ∀ test : Word → Bool, test c = true → Jumped test cond target s { s with pc := t } :=
    fun _ h => ⟨c, t, hc, ht, .inl ⟨h, rfl⟩⟩
  refine ⟨fun h => exec_of_effect (taken isNonZero ((isNonZero_eq_true c).2 h)),
    fun h => exec_of_effect (taken (fun c => !isNonZero c) ?_), fun hpc => ?_⟩
  · simp [(isNonZero_eq_false c).2 h]
  · obtain ⟨p, hp, -⟩ := advance_of_valid hpc (n := 3) (by decide)
    have fallsThrough : ∀ test : Word → Bool, test c = false → Jumped test cond target s { s with pc := p } :=
      fun _ h => ⟨c, t, hc, ht, .inr ⟨h, p, hp, rfl⟩⟩
    refine ⟨p, hp, fun h => exec_of_effect (fallsThrough isNonZero ((isNonZero_eq_false c).2 h)),
      fun h => exec_of_effect (fallsThrough (fun c => !isNonZero c) ?_)⟩
    simp [(isNonZero_eq_true c).2 h]

/-- Settles O23: the effect of AdjustRelativeBase. -/
theorem adjustAddsToBase : Obligations.AdjustAddsToBase := by
  intro s a x hx hr hpc
  obtain ⟨p, hp, -⟩ := advance_of_valid hpc (n := 2) (by decide)
  exact ⟨⟨_, hr⟩, p, rfl, hp, exec_of_effect ⟨x, _, p, hx, rfl, hp, rfl⟩⟩

/-- Settles O24: the effect of Halt, which checks nothing. -/
theorem haltStops : Obligations.HaltStops := fun s => exec_of_effect (i := .halt) (s := s) rfl

/-! Faults. -/

/-- R120: the first read parameter that faults decides, in format F3RRW. -/
theorem storeResult_of_operandFault (w : Word) (f : Int → Int → Int) (dst : Param) {s : State} {a b : Param} {e : Raised}
    (h : readOperand s a = .error e ∨ ∃ x, readOperand s a = .ok x ∧ readOperand s b = .error e) :
    storeResult w f a b dst s = .error e :=
  (storeResult_eq_error _ _ _ _ _ _ _).2 (h.imp_right fun ⟨x, ha, hb⟩ => ⟨x, ha, .inl hb⟩)

/-- R162: a jump reads both parameters, whether it is taken or not. -/
theorem jumpWhen_of_operandFault (taken : Word → Bool) {s : State} {a b : Param} {e : Raised}
    (h : readOperand s a = .error e ∨ ∃ x, readOperand s a = .ok x ∧ readOperand s b = .error e) :
    jumpWhen taken a b s = .error e :=
  (jumpWhen_eq_error _ _ _ _ _).2 (h.imp_right fun ⟨x, ha, hb⟩ => ⟨x, ha, .inl hb⟩)

/-- Settles O26: the operands are read before anything else is checked. -/
theorem operandFaultsInOrder : Obligations.OperandFaultsInOrder := by
  intro s a b e h
  refine ⟨fun dst => ?_, commit_of_error (jumpWhen_of_operandFault _ h), commit_of_error (jumpWhen_of_operandFault _ h),
    fun ha => ⟨?_, ?_⟩⟩
  · exact ⟨commit_of_error (storeResult_of_operandFault _ _ dst h), commit_of_error (storeResult_of_operandFault _ _ dst h),
      commit_of_error (storeResult_of_operandFault _ _ dst h), commit_of_error (storeResult_of_operandFault _ _ dst h)⟩
  · exact commit_of_error ((outputEmits_eq_error _ _ _).2 (.inl ha))
  · exact commit_of_error ((adjustBase_eq_error _ _ _ _).2 (.inl ha))

section
variable {s : State} {a b dst : Param} {x y : Word} {d : Int} (ha : readOperand s a = .ok x)
  (hb : readOperand s b = .ok y) (hd : effectiveAddress s dst = some d)
include ha hb hd

/-- R121, R126: the result is checked before the destination's bounds. -/
theorem storeResult_of_overflow (w : Word) {f : Int → Int → Int} (hr : ¬ InWord (f x.val y.val)) :
    storeResult w f a b dst s = .error ⟨.arithmeticOverflow, w.val⟩ :=
  (storeResult_eq_error _ _ _ _ _ _ _).2 (.inr ⟨x, ha, .inr ⟨y, hb, .inr ⟨d, hd, .inl ⟨hr, rfl⟩⟩⟩⟩)

/-- R126 (6): the destination's bounds come after the result. -/
theorem storeResult_of_invalid (w : Word) {f : Int → Int → Int} (hr : InWord (f x.val y.val)) (hv : ¬ s.validAddr d) :
    storeResult w f a b dst s = .error ⟨.writeOutOfBounds, d⟩ :=
  (storeResult_eq_error _ _ _ _ _ _ _).2
    (.inr ⟨x, ha, .inr ⟨y, hb, .inr ⟨d, hd, .inr ⟨hr, .inl ⟨hv, rfl⟩⟩⟩⟩⟩)

end

/-- Settles O25: a writable destination has an address, and the result is checked before the address is. -/
theorem overflowFaults : Obligations.OverflowFaults := by
  refine ⟨fun s a b dst x y ha hb hw => ?_, fun s a x hx hr => ?_⟩
  · obtain ⟨d, hd⟩ := writable_effectiveAddress (s := s) hw
    exact ⟨fun h => commit_of_error (storeResult_of_overflow ha hb hd _ (f := fun x y => x + y) h),
      fun h => commit_of_error (storeResult_of_overflow ha hb hd _ (f := fun x y => x * y) h)⟩
  · exact commit_of_error ((adjustBase_eq_error _ _ _ _).2 (.inr ⟨x, hx, .inl ⟨hr, rfl⟩⟩))

/-- Settles O27: a truth value is always a Word, so for the comparisons only the bounds are left to check. -/
theorem destinationFaultIsLast : Obligations.DestinationFaultIsLast := by
  intro s a b dst x y d ha hb hd hv
  exact ⟨fun h => commit_of_error (storeResult_of_invalid ha hb hd _ (f := fun x y => x + y) h hv),
    fun h => commit_of_error (storeResult_of_invalid ha hb hd _ (f := fun x y => x * y) h hv),
    commit_of_error (storeResult_of_invalid ha hb hd _ (inWord_truthValue _) hv),
    commit_of_error (storeResult_of_invalid ha hb hd _ (inWord_truthValue _) hv)⟩

/-! A store to the next instruction's word (R63). -/

/-- A fetch at the address just stored to reads the value stored. -/
theorem fetch_of_stored {s t : State} {d : Int} {v : Word} (hv : s.validAddr d) (hpc : t.pc.val = d)
    (hcfg : t.cfg = s.cfg) (hm : t.mem = s.mem.write d.toNat v) : memRead .fetch t t.pc.val = .ok v := by
  rw [memRead_eq_ok, hpc, hm]
  exact ⟨by rw [State.validAddr, hcfg]; exact hv, Memory.read_write_same _ _ _⟩

/-- R170, R171: the Word a comparison stores, as the spec writes it. -/
theorem truthWord_decide (P : Prop) [Decidable P] : truthWord (decide P) = if P then word 1 else word 0 := by
  by_cases h : P <;> simp [h]

/-- Settles O54: each instruction answers its effect, which leaves `pc` at the address stored to. -/
theorem storeSeenByNextFetch : Obligations.StoreSeenByNextFetch := by
  refine ⟨fun s a b dst x y ha hb hd hpc hv => ?_, fun s dst v rest hc hl hd hpc hv => ?_⟩
  · have store : ∀ f : Int → Int → Int, InWord (f x.val y.val) → ∃ t w, Stored f a b dst s t ∧
        t.pc.val = s.pc.val + 4 ∧ memRead .fetch t t.pc.val = .ok w ∧ w.val = f x.val y.val := by
      intro f hr
      obtain ⟨r, p, hval, hp, h⟩ := stored_of_checks f ha hb hd hv hpc hr
      exact ⟨_, r, h, hp, fetch_of_stored hv hp rfl rfl, hval⟩
    have compare : ∀ test : Int → Int → Bool, ∃ t, Stored (fun x y => truthValue (test x y)) a b dst s t ∧
        t.pc.val = s.pc.val + 4 ∧ memRead .fetch t t.pc.val = .ok (truthWord (test x.val y.val)) := by
      intro test
      obtain ⟨t, w, h, hp, hread, hval⟩ := store (fun x y => truthValue (test x y)) (inWord_truthValue _)
      exact ⟨t, h, hp, hread.trans (congrArg _ (Word.ext hval))⟩
    refine ⟨fun hr => ?sum, fun hr => ?product, ?less, ?equal⟩
    case sum =>
      obtain ⟨t, w, h, hrest⟩ := store (fun x y => x + y) hr
      exact ⟨t, w, exec_of_effect h, hrest⟩
    case product =>
      obtain ⟨t, w, h, hrest⟩ := store (fun x y => x * y) hr
      exact ⟨t, w, exec_of_effect h, hrest⟩
    case less =>
      obtain ⟨t, h, hp, hread⟩ := compare fun x y => x < y
      exact ⟨t, exec_of_effect h, hp, truthWord_decide (x.val < y.val) ▸ hread⟩
    case equal =>
      obtain ⟨t, h, hp, hread⟩ := compare fun x y => x = y
      exact ⟨t, exec_of_effect h, hp, truthWord_decide (x.val = y.val) ▸ hread⟩
  · have hs : suppliedValue s = some v := (suppliedValue_eq_some s v).2 ⟨hc, rest, hl⟩
    obtain ⟨p, hp, h⟩ := exec_input_of_valid hs hd hv hpc
    exact ⟨_, h, hp, fetch_of_stored hv hp rfl rfl⟩

end Sys2Proof.Machine

namespace Sys2Proof

/-- Settles O19: no value is supplied to a machine that is not awaiting one. (Outside the namespace of the model's own
`inputSuspends`.) -/
theorem inputSuspends : Obligations.InputSuspends := fun _ _ hw hc =>
  Machine.exec_input_suspends (Machine.suppliedValue_of_not_awaiting hc) hw

end Sys2Proof
end

section
/-!
PROOFS. What an effect changes of the machine and of the caller's side, said once (spec/40_execution_cycle.md R125,
R129), and what follows for one instruction: its causes, its frame, and that a Position operand may stand as an
Immediate one. Settles O28, O29, O30 and O55.
-/
namespace Sys2Proof.Machine

/-! Effects. -/

/-- How an effect answers the caller, and what it makes of the run state. -/
inductive Answers (i : Instr) (s t : State) : Prop where
  | silent (hi : (∀ dst, i ≠ .input dst) ∧ (∀ a, i ≠ .output a) ∧ i ≠ .halt) (hctl : t.ctl = s.ctl)
      (hcalls : t.calls = s.calls) (hresp : t.responses = s.responses)
  | output (a : Param) (v p : Word) (hi : i = .output a) (hv : readOperand s a = .ok v) (hp : p.val = s.pc.val + 2)
      (ht : t = State.respond { s with pc := p } (.output v))
  | suspended (dst : Param) (hi : i = .input dst) (hs : suppliedValue s = none)
      (ht : t = State.respond { s with ctl := .awaitingInput } .inputRequested)
  | completed (dst : Param) (v : Word) (hi : i = .input dst) (hs : suppliedValue s = some v) (hctl : t.ctl = .ready)
      (hcalls : t.calls = s.calls.tail) (hresp : t.responses = .ack :: s.responses)
  | halted (hi : i = .halt) (ht : t = State.respond { s with ctl := .halted } .halted)

/-- R125, R190: only Output, Input and Halt answer the caller, and only Input and Halt change the run state. -/
theorem effect_answers {i : Instr} {s t : State} (h : Effect i s t) : Answers i s t := by
  cases i with
  | add a b dst | mul a b dst | lessThan a b dst | equals a b dst =>
    obtain ⟨x, y, d, r, p, -, -, -, -, -, -, rfl⟩ := h; exact .silent (by simp) rfl rfl rfl
  | jumpIfTrue cond target | jumpIfFalse cond target =>
    obtain ⟨c, v, -, -, ⟨-, rfl⟩ | ⟨-, p, -, rfl⟩⟩ := h <;> exact .silent (by simp) rfl rfl rfl
  | adjustRelativeBase a => obtain ⟨x, r, p, -, -, -, rfl⟩ := h; exact .silent (by simp) rfl rfl rfl
  | output a => obtain ⟨v, p, hv, hp, rfl⟩ := h; exact .output a v p rfl hv hp rfl
  | halt => exact .halted rfl h
  | input dst =>
    rcases h with ⟨hs, d, -, rfl⟩ | ⟨v, hs, d, p, -, -, -, rfl⟩
    · exact .suspended dst rfl hs rfl
    · exact .completed dst v rfl hs rfl rfl rfl

/-- R25, R129: only AdjustRelativeBase writes the base. -/
theorem effect_rb {i : Instr} {s t : State} (h : Effect i s t) : t.rb = s.rb ∨ ∃ a, i = .adjustRelativeBase a := by
  cases i with
  | add a b dst | mul a b dst | lessThan a b dst | equals a b dst =>
    obtain ⟨x, y, d, r, p, -, -, -, -, -, -, rfl⟩ := h; exact .inl rfl
  | jumpIfTrue cond target | jumpIfFalse cond target =>
    obtain ⟨c, v, -, -, ⟨-, rfl⟩ | ⟨-, p, -, rfl⟩⟩ := h <;> exact .inl rfl
  | adjustRelativeBase a => exact .inr ⟨a, rfl⟩
  | output a => obtain ⟨v, p, -, -, rfl⟩ := h; exact .inl rfl
  | halt => cases h; exact .inl rfl
  | input dst =>
    rcases h with ⟨-, d, -, rfl⟩ | ⟨v, -, d, p, -, -, -, rfl⟩ <;> exact .inl rfl

/-- An effect from a run state that is not Faulted does not lead there. -/
theorem effect_not_faulted {i : Instr} {s t : State} (h : Effect i s t) (hs : s.ctl ≠ .faulted) : t.ctl ≠ .faulted := by
  obtain ⟨-, -, -, -, hfaulted⟩ := effect_keeps h
  exact fun ht => hs (hfaulted ht)

/-- A next state that is not Faulted is the effect's. -/
theorem effect_of_not_faulted {i : Instr} {s t : State} (h : exec i s = .next t) (ht : t.ctl ≠ .faulted) :
    Effect i s t := by
  rcases exec_cases h with he | ⟨e, rfl, -⟩
  · exact he
  · exact absurd (raise_ctl s e) ht

/-- Next states that are not Faulted are exactly the effects. -/
theorem exec_eq_next_iff {i : Instr} {s t : State} (ht : t.ctl ≠ .faulted) : exec i s = .next t ↔ Effect i s t :=
  ⟨fun h => effect_of_not_faulted h ht, exec_of_effect⟩

/-! Claims about one instruction. -/

/-- Settles O28: an effect does not lead to Faulted, and the fault of a well-formed instruction is one of its row. -/
theorem faultCausesPerInstruction : Obligations.FaultCausesPerInstruction := by
  intro i s t hwf hpc hs h ht
  rcases exec_cases h with he | ⟨e, rfl, hraise⟩
  · exact absurd ht (effect_not_faulted he hs)
  · obtain ⟨hcause, -, hinput⟩ := hraise hwf hpc
    exact ⟨hcause, hinput⟩

/-- A cell that is not the destination's reads as before. -/
theorem effect_read {i : Instr} {s t : State} {a : Nat} (h : Effect i s t)
    (ha : ∀ dst, destination i = some dst → effectiveAddress s dst ≠ some (a : Int)) : t.mem.read a = s.mem.read a := by
  rcases effect_mem h with hm | ⟨dst, b, v, hdst, hb, -, hm, -⟩
  · rw [hm]
  · have hne : b ≠ a := fun hba => ha dst hdst (hba ▸ hb)
    rw [hm, Memory.read_write_other _ _ _ _ hne]

/-- Settles O29: a storing instruction is neither Output nor Halt, so but for Input its effect is silent. -/
theorem storingFrame : Obligations.StoringFrame := by
  intro i dst s t hdst h ht
  have he := effect_of_not_faulted h ht
  obtain ⟨hcause, hfinfo, hcfg, htick, -⟩ := effect_keeps he
  have hrb : t.rb = s.rb := (effect_rb he).resolve_right fun ⟨a, ha⟩ => by simp [ha, destination] at hdst
  refine ⟨fun d hd a ha => effect_read he fun dst' hdst' hd' => ?_, hrb, hcause, hfinfo, hcfg, htick, fun hi => ?_⟩
  · obtain rfl : dst = dst' := Option.some.inj (hdst.symm.trans hdst')
    exact ha (Option.some.inj (hd'.symm.trans hd))
  · cases effect_answers he with
    | silent _ hctl hcalls hresp => exact ⟨hctl, hcalls, hresp⟩
    | output a v p ha => simp [ha, destination] at hdst
    | suspended p hp => exact absurd hp (hi p)
    | completed p v hp => exact absurd hp (hi p)
    | halted hh => simp [hh, destination] at hdst

/-- Settles O30: nothing is stored, and each other clause is read off the way the effect answers. -/
theorem nonStoringFrame : Obligations.NonStoringFrame := by
  intro i s t h ht hi
  have he := effect_of_not_faulted h ht
  obtain ⟨hcause, hfinfo, hcfg, htick, -⟩ := effect_keeps he
  have hmem : t.mem = s.mem := (effect_mem he).resolve_right fun ⟨dst, a, v, hdst, _, _, _, hawait⟩ => by
    rcases hi with hi | ⟨⟨p, hp⟩, hc⟩
    · simp [hi] at hdst
    · exact hc (hawait p hp)
  have hrb : (∀ a, i ≠ .adjustRelativeBase a) → t.rb = s.rb := fun hadj =>
    (effect_rb he).resolve_right fun ⟨a, ha⟩ => hadj a ha
  refine ⟨fun a => by rw [hmem], hcause, hfinfo, hcfg, htick, hrb, ?_⟩
  cases effect_answers he with
  | silent hsilent hctl hcalls hresp =>
    obtain ⟨hinput, -, hhalt⟩ := hsilent
    exact ⟨fun _ _ => hctl, fun hor => (hor.elim hhalt fun ⟨dst, hdst⟩ => hinput dst hdst).elim,
      fun _ _ _ => ⟨hcalls, hresp⟩⟩
  | output a v p ha _ _ hstate =>
    subst ha hstate
    exact ⟨fun _ _ => rfl, by simp, fun _ _ hout => absurd rfl (hout a)⟩
  | suspended dst hdst _ hstate =>
    subst hstate
    exact ⟨fun _ hin => absurd hdst (hin dst), fun _ => rfl, fun _ hin => absurd hdst (hin dst)⟩
  | completed dst v hdst hs =>
    have hc := ((suppliedValue_eq_some _ _).1 hs).1
    rcases hi with hi | ⟨-, hnot⟩
    · simp [hdst, destination] at hi
    · exact absurd hc hnot
  | halted hhalt hstate =>
    subst hstate
    exact ⟨fun hnot => absurd hhalt hnot, fun _ => rfl, fun hnot => absurd hhalt hnot⟩

/-- Settles O55: an effect reads its operands by their values alone, and a Position operand inside memory has the value of
the Immediate one. -/
theorem positionReadsAsImmediate : Obligations.PositionReadsAsImmediate := by
  intro s t p q dst hp hq ht a b a' b'
  have ha : readOperand s a = readOperand s a' := readOperand_of_valid (effectiveAddress_position s p) hp
  have hb : readOperand s b = readOperand s b' := readOperand_of_valid (effectiveAddress_position s q) hq
  simp only [exec_eq_next_iff ht, Effect, Stored, Jumped, ha, hb, and_self]

end Sys2Proof.Machine
end

section
/-!
PROOFS. Fetch, decode and run (spec/40_execution_cycle.md R110 to R113), and a jump to itself (R160). Settles O7, O8,
O10, O11 and O52.
-/
namespace Sys2Proof.Machine

/-! Fetch. -/

/-- R111: a `pc` that is no valid address faults before anything is decoded. -/
theorem fetchInstr_of_invalid {s : State} (h : ¬ s.validAddr s.pc.val) :
    fetchInstr s = .error ⟨.fetchOutOfBounds, s.pc.val⟩ :=
  (bind_eq_error _ _ _).2 (.inl ((fetchHeader_eq_error _ _).2 (.inl ⟨h, rfl⟩)))

/-- R113: raw parameter `i`, where it is there and lies in memory. -/
theorem fetchParam_of_valid {s : State} {n i : Nat} (hpc : 0 ≤ s.pc.val)
    (h : i ≤ n → s.validAddr (s.pc.val + i)) :
    fetchParam s n i = .ok (if i ≤ n then s.mem.read (s.pc.val.toNat + i) else .zero) := by
  unfold fetchParam
  split
  · next hi =>
    have haddr : (s.pc.val + i).toNat = s.pc.val.toNat + i := by omega
    rw [memRead_of_valid .fetch (h hi), haddr]
  · rfl

/-- R113: raw parameter `i`, where it is there and lies outside memory. -/
theorem fetchParam_of_invalid {s : State} {n i : Nat} (hi : i ≤ n) (h : ¬ s.validAddr (s.pc.val + i)) :
    fetchParam s n i = .error ⟨.fetchOutOfBounds, s.pc.val + i⟩ := by
  rw [fetchParam, if_pos hi]
  exact memRead_of_outside .fetch ((not_validAddr_iff _ _).1 h)

/-- R80: an instruction has only as many raw parameters as its opcode takes; the others do not matter. -/
theorem instr_of_unread (h : Header) (p1 p2 p3 : Word) :
    h.instr (if 1 ≤ h.op.paramCount then p1 else .zero) (if 2 ≤ h.op.paramCount then p2 else .zero)
      (if 3 ≤ h.op.paramCount then p3 else .zero) = h.instr p1 p2 p3 := by
  obtain ⟨op, m1, m2, m3⟩ := h
  cases op <;> rfl

/-- R111 to R113: the fetch reads the instruction that the cells from `pc` on decode to, where its cells are valid
addresses. -/
theorem fetchInstr_of_decode {s : State} {i : Instr} {rest : List Word} (hv : s.validAddr s.pc.val)
    (hlast : s.validAddr (s.pc.val + i.length - 1)) (hd : decode (cellsAtPc s) = .ok (i, rest)) :
    fetchInstr s = .ok i := by
  obtain ⟨w, ps, h, hcells, hw, -, hi, -⟩ := decode_eq_ok hd
  obtain ⟨rfl, rfl⟩ := List.cons.inj hcells
  have hlen : i.length = 1 + h.op.paramCount := by rw [Instr.length, ← hi, (decodeHeader_legal hw _ _ _).1]
  rw [hlen] at hlast
  have param : ∀ k, fetchParam s h.op.paramCount k =
      .ok (if k ≤ h.op.paramCount then s.mem.read (s.pc.val.toNat + k) else .zero) := by
    intro k
    refine fetchParam_of_valid hv.1 fun hk => ?_
    simp only [State.validAddr] at hv hlast ⊢
    omega
  have hheader : fetchHeader s = .ok h := (fetchHeader_eq_ok _ _).2 ⟨hv, hw⟩
  simp only [fetchInstr, bind_eq_ok]
  exact ⟨h, hheader, _, param 1, _, param 2, _, param 3, congrArg _ ((instr_of_unread h _ _ _).trans hi)⟩

/-- R113: the parameters are fetched in order, and the first that lies outside memory decides. -/
theorem fetchInstr_of_invalidParam {s : State} {h : Header} {k : Nat} (hv : s.validAddr s.pc.val)
    (hw : decodeHeader (s.mem.read s.pc.val.toNat) = .ok h) (h1 : 1 ≤ k) (hk : k ≤ h.op.paramCount)
    (hbefore : s.validAddr (s.pc.val + k - 1)) (hinvalid : ¬ s.validAddr (s.pc.val + k)) :
    fetchInstr s = .error ⟨.fetchOutOfBounds, s.pc.val + k⟩ := by
  have hheader : fetchHeader s = .ok h := (fetchHeader_eq_ok _ _).2 ⟨hv, hw⟩
  have before : ∀ j, j < k → ∃ p, fetchParam s h.op.paramCount j = .ok p := fun j hj => by
    refine ⟨_, fetchParam_of_valid hv.1 fun _ => ?_⟩
    simp only [State.validAddr] at hv hbefore ⊢
    omega
  have here := fetchParam_of_invalid hk hinvalid
  have h3 := hk.trans h.op.paramCount_le
  refine (bind_eq_error _ _ _).2 (.inr ⟨h, hheader, ?_⟩)
  interval_cases k
  · exact (bind_eq_error _ _ _).2 (.inl here)
  · obtain ⟨p1, hp1⟩ := before 1 (by decide)
    exact (bind_eq_error _ _ _).2 (.inr ⟨p1, hp1, (bind_eq_error _ _ _).2 (.inl here)⟩)
  · obtain ⟨p1, hp1⟩ := before 1 (by decide)
    obtain ⟨p2, hp2⟩ := before 2 (by decide)
    exact (bind_eq_error _ _ _).2 (.inr ⟨p1, hp1, (bind_eq_error _ _ _).2 (.inr ⟨p2, hp2,
      (bind_eq_error _ _ _).2 (.inl here)⟩)⟩)

/-! The step. -/

/-- R110, R127: inside a `resume` that executes, a step is the meaning of the instruction fetched. -/
theorem step_of_fetch {s : State} {i : Instr} (hr : Running s) (hf : fetchInstr s = .ok i) :
    step s = exec i { s with ctl := .ready } := by
  simp only [step_of_running hr, runInstr, fetchInstr_with_ctl, hf]

theorem step_supplyInput {s : State} {v : Word} (h : s.calls.head? = some (.supplyInput v)) :
    step s = supplyInput s := by
  obtain ⟨rest, hl⟩ := List.head?_eq_some_iff.1 h
  simp only [step, transact, hl]

/-- R151: `supply_input` to an awaiting machine is the meaning of the Input at `pc`. -/
theorem step_of_supply {s : State} {v : Word} {dst : Param} (hc : s.ctl = .awaitingInput)
    (h : s.calls.head? = some (.supplyInput v)) (hf : fetchInstr s = .ok (.input dst)) :
    step s = exec (.input dst) s := by
  simp only [step_supplyInput h, supplyInput, hc, hf]

/-- Settles O7: the fetch reads the instruction, and the step runs it. -/
theorem stepRunsDecodedInstruction : Obligations.StepRunsDecodedInstruction := by
  intro s i rest hv hlast hd
  have hf := fetchInstr_of_decode hv hlast hd
  exact ⟨fun hr => step_of_fetch hr hf, fun dst v hi hc hl => hi ▸ step_of_supply hc hl (hi ▸ hf)⟩

/-- Settles O8: the fetch raises, and its error is fault entry. -/
theorem fetchOutOfBoundsFaults : Obligations.FetchOutOfBoundsFaults := fun _ hr hv =>
  step_of_fetchError hr (fetchInstr_of_invalid hv)

/-- Settles O10: fault entry, every field written out. -/
theorem decodeFaultEntersFaulted : Obligations.DecodeFaultEntersFaulted := fun _ _ hr hv hd =>
  step_of_fetchError hr (fetchInstr_of_decodeError hv hd)

/-- Settles O11: the fetch raises at the first parameter outside memory. -/
theorem parameterFetchFaults : Obligations.ParameterFetchFaults := fun _ _ _ hr hv hw h1 hk hbefore hinvalid =>
  step_of_fetchError hr (fetchInstr_of_invalidParam hv hw h1 hk hbefore hinvalid)

/-! A taken jump to itself (R160). -/

/-- One round of the loop leaves the machine as it was, but for the run state of its first step. -/
theorem step_selfLoop {s : State} {c : Word} (hr : Running s)
    (hf : fetchInstr s = .ok (.jumpIfTrue ⟨.immediate, c⟩ ⟨.immediate, s.pc⟩)) (hc : c.val ≠ 0) :
    step s = .next { s with ctl := .ready } := by
  rw [step_of_fetch hr hf]
  exact exec_of_effect ⟨c, s.pc, rfl, rfl, .inl ⟨(isNonZero_eq_true c).2 hc, rfl⟩⟩

/-- Settles O52: after its first round the loop is in a state that a step leaves as it is. -/
theorem selfLoopHangs : Obligations.SelfLoopHangs := by
  intro s c rest hr hv hlast hd hc k
  have hf := fetchInstr_of_decode hv (by simpa [Instr.length, Instr.header, Opcode.paramCount, add_sub_assoc] using hlast) hd
  have first : step s = .next { s with ctl := .ready } := step_selfLoop hr hf hc
  have again : step { s with ctl := .ready } = .next { s with ctl := .ready } :=
    step_selfLoop (s := { s with ctl := .ready }) ⟨.inr rfl, hr.2⟩ hf hc
  have keep : ∀ u, (u = s ∨ u = { s with ctl := .ready }) →
      ∃ t, step u = .next t ∧ (t = s ∨ t = { s with ctl := .ready }) := by
    rintro u (rfl | rfl)
    · exact ⟨_, first, .inr rfl⟩
    · exact ⟨_, again, .inr rfl⟩
  obtain ⟨t, ht, hor⟩ := runFor_answered keep k (.inl rfl)
  refine ⟨t, ht, ?_⟩
  rcases hor with rfl | rfl <;> rfl

end Sys2Proof.Machine
end

section
/-!
PROOFS. The transactions one by one (spec/47_host_transactions.md R191 to R205), and a Faulted machine, which every
transaction but `load` leaves as it is (R232). Settles O35 to O39 and O49.
-/
namespace Sys2Proof.Machine

/-! Which transaction a step carries out. -/

theorem step_resume {s : State} (h : s.calls.head? = some .resume) : step s = resume s := by
  obtain ⟨rest, hl⟩ := List.head?_eq_some_iff.1 h
  simp only [step, transact, hl]

theorem step_peek {s : State} {a : Int} (h : s.calls.head? = some (.peek a)) :
    step s = .next (s.respond (peekResponse s a)) := by
  obtain ⟨rest, hl⟩ := List.head?_eq_some_iff.1 h
  simp only [step, transact, hl]

theorem step_status {s : State} (h : s.calls.head? = some .status) :
    step s = .next (s.respond (statusResponse s)) := by
  obtain ⟨rest, hl⟩ := List.head?_eq_some_iff.1 h
  simp only [step, transact, hl]

/-- With no transaction left, a machine that is neither Fresh nor Ready is left alone (log 5). -/
theorem step_idle {s : State} (h : s.calls = []) (hc : s.ctl ≠ .fresh ∧ s.ctl ≠ .ready) : step s = .next s := by
  cases hctl : s.ctl with
  | fresh => exact absurd hctl hc.1
  | ready => exact absurd hctl hc.2
  | awaitingInput | halted | faulted => simp only [step, transact, h, hctl]

/-- R195: `resume` of an awaiting machine asks again. -/
theorem step_awaiting_resume {s : State} (hc : s.ctl = .awaitingInput) (h : s.calls.head? = some .resume) :
    step s = .next (s.respond .inputRequested) := by
  simp only [step_resume h, resume, hc]

/-- R196: `resume` of a Faulted machine repeats the fault. -/
theorem step_faulted_resume {s : State} (hc : s.ctl = .faulted) (h : s.calls.head? = some .resume) :
    step s = .next (s.respond (.fault s.cause s.finfo)) := by
  simp only [step_resume h, resume, hc]

/-- R198: `supply_input` to a Faulted machine repeats the fault. -/
theorem step_faulted_supplyInput {s : State} {v : Word} (hc : s.ctl = .faulted)
    (h : s.calls.head? = some (.supplyInput v)) : step s = .next (s.respond (.fault s.cause s.finfo)) := by
  simp only [step_supplyInput h, supplyInput, hc]

/-- R197: `supply_input` out of turn is fault entry. -/
theorem step_supplyInput_outOfTurn {s : State} {v : Word} (hc : s.ctl = .fresh ∨ s.ctl = .ready ∨ s.ctl = .halted)
    (h : s.calls.head? = some (.supplyInput v)) : step s = .next (s.raise ⟨.protocolViolation, 0⟩) := by
  rcases hc with hc | hc | hc <;> simp only [step_supplyInput h, supplyInput, hc]

/-! The transactions as full next states. -/

/-- Fault entry inside the first of the caller's transactions, every field written out. -/
theorem raise_eq_of_calls_cons {s : State} {c : Call} {rest : List Call} (h : s.calls = c :: rest) (e : Raised) :
    s.raise e = { s with ctl := .faulted, cause := e.cause, finfo := e.info, calls := rest,
                         responses := .fault e.cause e.info :: s.responses } := by
  simp only [State.raise, State.respond, h, List.tail_cons]

/-- Settles O35: each is one response. -/
theorem suspendedResumeChangesNothing : Obligations.SuspendedResumeChangesNothing := by
  intro s rest h
  have hd := List.head?_eq_some_iff.2 ⟨rest, h⟩
  exact ⟨fun hc => by rw [step_awaiting_resume hc hd, respond_eq_of_calls_cons h],
    fun hc => by rw [step_faulted_resume hc hd, respond_eq_of_calls_cons h]⟩

/-- Settles O36: fault entry out of turn, one response from Faulted. -/
theorem supplyInputOutOfTurn : Obligations.SupplyInputOutOfTurn := by
  intro s v rest h
  have hd := List.head?_eq_some_iff.2 ⟨rest, h⟩
  refine ⟨fun hc => ?_, fun hc => ?_, rfl, by decide⟩
  · rw [step_supplyInput_outOfTurn hc hd, raise_eq_of_calls_cons h]
  · rw [step_faulted_supplyInput hc hd, respond_eq_of_calls_cons h]

/-- Settles O37: the state that `load_fits` writes out, and its memory's reads. -/
theorem loadResetsEverything : Obligations.LoadResetsEverything := by
  intro s program rest h hfit
  refine ⟨_, step_load h, fun a ha => ?_, fun a => load_read_beyond hfit, ?_⟩
  · rw [load_fits hfit, respond_mem, Memory.read_ofProgram]
    simp [ha]
  · rw [load_fits hfit]
    exact ⟨rfl, rfl, rfl, rfl, rfl, rfl, rfl, rfl, by rw [respond_calls, h]; rfl, rfl⟩

/-- Settles O38: the state that `load_tooLarge` writes out, and the canonical form of any list of cells. -/
theorem loadTooLargeFaults : Obligations.LoadTooLargeFaults := by
  intro s program rest h hlong
  refine ⟨_, step_load h, ?_⟩
  rw [load_tooLarge (Nat.not_le.2 hlong)]
  exact ⟨rfl, rfl, rfl, rfl, rfl, rfl, by rw [raise_calls, h]; rfl, rfl, rfl, Memory.ofCells_wf _ _,
    Memory.ofCells_inRange _ _⟩

/-- Settles O39: each is one response, that of `peek` by the address's validity. -/
theorem peekAndStatusOnlyRead : Obligations.PeekAndStatusOnlyRead := by
  refine ⟨fun s addr rest h => ?_, fun s rest h => ?_⟩
  · rw [step_peek (List.head?_eq_some_iff.2 ⟨rest, h⟩), respond_eq_of_calls_cons h]
    exact ⟨fun hv => by rw [peekResponse, if_pos hv], fun hv => by rw [peekResponse, if_neg hv]⟩
  · rw [step_status (List.head?_eq_some_iff.2 ⟨rest, h⟩), respond_eq_of_calls_cons h]
    rfl

/-! The Faulted machine. -/

/-- R196, R198, R204, R205: outside `load`, a Faulted machine is left alone or responds. -/
theorem step_faulted {s : State} (hc : s.ctl = .faulted) (hl : ∀ p, s.calls.head? ≠ some (.load p)) :
    step s = .next s ∨ ∃ r, step s = .next (s.respond r) := by
  rcases h : s.calls with _ | ⟨c, rest⟩
  · exact .inl (step_idle h (by simp [hc]))
  · have hd := List.head?_eq_some_iff.2 ⟨rest, h⟩
    cases c with
    | load p => exact absurd hd (hl p)
    | resume => exact .inr ⟨_, step_faulted_resume hc hd⟩
    | supplyInput v => exact .inr ⟨_, step_faulted_supplyInput hc hd⟩
    | peek a => exact .inr ⟨_, step_peek hd⟩
    | status => exact .inr ⟨_, step_status hd⟩

/-- The Faulted machine of `s`, with no `load` to come. -/
structure LatchedAs (s t : State) : Prop where
  ctl : t.ctl = .faulted
  cause : t.cause = s.cause
  finfo : t.finfo = s.finfo
  mem : t.mem = s.mem
  pc : t.pc = s.pc
  rb : t.rb = s.rb
  noLoad : ∀ p, .load p ∉ t.calls

/-- A latched machine answers a step and stays latched. -/
theorem step_latchedAs {s t : State} (h : LatchedAs s t) : ∃ u, step t = .next u ∧ LatchedAs s u := by
  have hl : ∀ p, t.calls.head? ≠ some (.load p) := fun p hp => h.noLoad p (List.mem_of_mem_head? hp)
  rcases step_faulted h.ctl hl with hs | ⟨r, hs⟩
  · exact ⟨t, hs, h⟩
  · exact ⟨t.respond r, hs, h.ctl, h.cause, h.finfo, h.mem, h.pc, h.rb, fun p hp => h.noLoad p (List.mem_of_mem_tail hp)⟩

/-- R232: a run of a Faulted machine without a `load` is answered and keeps the first fault. -/
theorem runFor_latchedAs {s : State} (hc : s.ctl = .faulted) (hl : ∀ p, .load p ∉ s.calls) (k : Nat) :
    ∃ t, runFor k s = .next t ∧ LatchedAs s t :=
  runFor_answered (fun _ => step_latchedAs) k ⟨hc, rfl, rfl, rfl, rfl, rfl, hl⟩

/-- Settles O49: a Faulted machine stays latched through a run of any length. -/
theorem faultedAbsorbs : Obligations.FaultedAbsorbs := by
  intro k s hc hl
  obtain ⟨t, hrun, ht⟩ := runFor_latchedAs hc hl k
  exact ⟨t, hrun, ht.ctl, ht.cause, ht.finfo, ht.mem, ht.pc, ht.rb⟩

end Sys2Proof.Machine
end

section
/-!
PROOFS. What every step keeps, and where what it changes comes from (spec/47_host_transactions.md R190 to R207,
spec/60_exceptions.md R222, R230, R231). Settles O31 to O33, O40 to O42 and O46 to O48.
-/
namespace Sys2Proof.Machine

theorem not_faulted_of_running {s : State} (h : Running s) : s.ctl ≠ .faulted := by
  rcases h.1 with hc | hc <;> simp [hc]

/-! The outcomes of a step that executes an instruction. -/

/-- What a fault of the program records: a code of 1 to 8, and 65 bits of information (R29, R222). -/
structure GuestRaised (e : Raised) : Prop where
  code : 1 ≤ e.cause.code ∧ e.cause.code ≤ 8
  width : -18446744073709551616 ≤ e.info ∧ e.info < 18446744073709551616

/-- R223: the causes after a decode have the codes 6 to 8. -/
theorem executionCauses_code (i : Instr) : ∀ c ∈ executionCauses i, 6 ≤ c.code ∧ c.code ≤ 8 := by
  cases i <;> simp [executionCauses, Cause.code]

/-- A fetch that raises is a fault of the program. -/
theorem guestRaised_of_fetch {s : State} {e : Raised} (h : fetchInstr s = .error e) : GuestRaised e := by
  obtain ⟨h1, h5, hwidth⟩ := fetchInstr_raises h
  exact ⟨⟨h1, h5.trans (by decide)⟩, hwidth⟩

/-- An instruction that was fetched has its effect, or is a fault of the program that changes nothing else. -/
theorem ran_cases {i : Instr} {s t : State} (hf : fetchInstr s = .ok i)
    (h : exec i { s with ctl := .ready } = .next t) :
    Effect i { s with ctl := .ready } t ∨ ∃ e, GuestRaised e ∧ t = s.raise e := by
  refine (exec_cases h).imp_right fun ⟨e, ht, hraise⟩ => ⟨e, ?_, ht⟩
  obtain ⟨hwf, hpc, -⟩ := fetchInstr_wellFormed hf
  obtain ⟨hcause, hwidth, -⟩ := hraise hwf hpc
  obtain ⟨h6, h8⟩ := executionCauses_code i _ hcause
  exact ⟨⟨le_trans (by decide) h6, h8⟩, hwidth⟩

/-- Inside a `resume` that executes, a step is the effect of the instruction fetched or a fault of the program. -/
theorem step_running_cases {s t : State} (hr : Running s) (h : step s = .next t) :
    (∃ i, fetchInstr s = .ok i ∧ Effect i { s with ctl := .ready } t) ∨ ∃ e, GuestRaised e ∧ t = s.raise e := by
  cases hf : fetchInstr s with
  | ok i => exact (ran_cases hf (step_of_fetch hr hf ▸ h)).imp_left fun he => ⟨i, rfl, he⟩
  | error e =>
    exact .inr ⟨e, guestRaised_of_fetch hf, (Host.Outcome.next.inj ((step_of_fetchError hr hf).symm.trans h)).symm⟩

/-- The completion of an Input that was fetched stores and answers, or raises WriteOutOfBounds. -/
theorem completed_cases {s t : State} {v : Word} {dst : Param} (hl : s.calls.head? = some (.supplyInput v))
    (hc : s.ctl = .awaitingInput) (hf : fetchInstr s = .ok (.input dst)) (h : exec (.input dst) s = .next t) :
    ∃ d, effectiveAddress s dst = some d ∧
      ((s.validAddr d ∧ ∃ p : Word, p.val = s.pc.val + 2 ∧
          t = State.respond { s with mem := s.mem.write d.toNat v, pc := p, ctl := .ready } .ack) ∨
        t = s.raise ⟨.writeOutOfBounds, d⟩) := by
  obtain ⟨hwf, hpc, -⟩ := fetchInstr_wellFormed hf
  obtain ⟨d, hd⟩ := writable_effectiveAddress (s := s) (p := dst) hwf
  have hs : suppliedValue s = some v := (suppliedValue_eq_some s v).2 ⟨hc, List.head?_eq_some_iff.1 hl⟩
  refine ⟨d, hd, ?_⟩
  by_cases hv : s.validAddr d
  · obtain ⟨p, hp, hx⟩ := exec_input_of_valid hs hd hv hpc
    exact .inl ⟨hv, p, hp, (Host.Outcome.next.inj (hx.symm.trans h)).symm⟩
  · exact .inr (Host.Outcome.next.inj ((exec_input_of_invalid hs hd hv).symm.trans h)).symm

/-- The same, from the step: an awaiting machine that answers `supply_input` completes the Input at `pc`. -/
theorem step_supply_cases {s t : State} {v : Word} (hl : s.calls.head? = some (.supplyInput v))
    (hc : s.ctl = .awaitingInput) (h : step s = .next t) :
    ∃ dst d, fetchInstr s = .ok (.input dst) ∧ effectiveAddress s dst = some d ∧
      ((s.validAddr d ∧ ∃ p : Word, p.val = s.pc.val + 2 ∧
          t = State.respond { s with mem := s.mem.write d.toNat v, pc := p, ctl := .ready } .ack) ∨
        t = s.raise ⟨.writeOutOfBounds, d⟩) := by
  rw [step_supplyInput hl] at h
  simp only [supplyInput, hc] at h
  split at h
  · next dst hf =>
    obtain ⟨d, hd, ht⟩ := completed_cases hl hc hf h
    exact ⟨dst, d, hf, hd, ht⟩
  · cases h

/-- The two outcomes of `load`. -/
theorem step_load_cases {s t : State} {p : List Word} (hl : s.calls.head? = some (.load p)) (h : step s = .next t) :
    (t.ctl = .fresh ∧ t.responses = .ack :: s.responses) ∨
      (t.ctl = .faulted ∧ t.cause = .loadTooLarge ∧ t.responses = .fault .loadTooLarge t.finfo :: s.responses) := by
  obtain ⟨rest, hcalls⟩ := List.head?_eq_some_iff.1 hl
  obtain rfl : load p s = t := Host.Outcome.next.inj ((step_load hcalls).symm.trans h)
  by_cases hp : p.length ≤ s.cfg.memCapacity
  · rw [load_fits hp]; exact .inl ⟨rfl, rfl⟩
  · rw [load_tooLarge hp]; exact .inr ⟨rfl, rfl, rfl⟩

/-! Faults. -/

/-- R231: outside `load`, a step that enters Faulted is fault entry in the state it began from. -/
theorem step_raises {s t : State} (h : step s = .next t) (hs : s.ctl ≠ .faulted) (ht : t.ctl = .faulted)
    (hl : ∀ p, s.calls.head? ≠ some (.load p)) : ∃ e, t = s.raise e := by
  cases step_cases h with
  | fetchFault e _ _ hstate => exact ⟨e, hstate⟩
  | outOfTurn v _ _ hstate => exact ⟨_, hstate⟩
  | ran i _ hf hx =>
    rcases ran_cases hf hx with he | ⟨e, -, hstate⟩
    · exact absurd ht (effect_not_faulted he (by simp))
    · exact ⟨e, hstate⟩
  | completed v dst _ hc hf hx =>
    rcases exec_cases hx with he | ⟨e, hstate, -⟩
    · exact absurd ht (effect_not_faulted he hs)
    · exact ⟨e, hstate⟩
  | loaded p hp _ => exact absurd hp (hl p)
  | latched v _ hc _ => exact absurd hc hs
  | idle _ _ hstate | repeated _ _ _ hstate | peeked _ _ hstate | asked _ hstate => subst hstate; exact absurd ht hs

/-- Settles O31: the fault entry is the one whose cause and information the next state holds. -/
theorem faultsArePrecise : Obligations.FaultsArePrecise := by
  intro s t h hs ht hl
  obtain ⟨e, rfl⟩ := step_raises h hs ht hl
  rfl

theorem Cause.code_lt_iff (c : Cause) : c.code < 16 ↔ c ≠ .protocolViolation ∧ c ≠ .loadTooLarge := by
  cases c <;> simp [Cause.code]

/-- Settles O32: who raises is read off the transaction in progress. -/
theorem faultClasses : Obligations.FaultClasses := by
  refine ⟨Cause.code_lt_iff, fun s t _ h hs ht => ⟨fun hr => ?_, fun v hl => ⟨fun hc => ?_, fun hc => ?_⟩, fun p hl => ?_⟩⟩
  · rcases step_running_cases hr h with ⟨i, -, he⟩ | ⟨e, hguest, rfl⟩
    · exact absurd ht (effect_not_faulted he (by simp))
    · exact ⟨⟨hguest.code.1, hguest.code.2.trans_lt (by decide)⟩, hguest.code.2⟩
  · obtain ⟨dst, d, -, -, ⟨-, p, -, rfl⟩ | rfl⟩ := step_supply_cases hl hc h
    · cases ht
    · simp only [raise_cause]; decide
  · have hout : s.ctl = .fresh ∨ s.ctl = .ready ∨ s.ctl = .halted := by
      cases hctl : s.ctl <;> simp_all
    obtain rfl : s.raise _ = t := Host.Outcome.next.inj ((step_supplyInput_outOfTurn hout hl).symm.trans h)
    simp only [raise_cause]; decide
  · rcases step_load_cases hl h with ⟨hfresh, -⟩ | ⟨-, hcause, -⟩
    · rw [hfresh] at ht; cases ht
    · rw [hcause]; decide

/-- Settles O33: the rows of the table, by the transaction in progress and the run state. -/
theorem transitionTable : Obligations.TransitionTable := by
  intro s t _ h
  have next {u : State} (hu : step s = .next u) : t = u := Host.Outcome.next.inj (h.symm.trans hu)
  refine ⟨fun hl => ⟨fun hc => ?running, fun hc => next (step_awaiting_resume hc hl), fun hc => ?_,
      fun hc => next (step_faulted_resume hc hl)⟩,
    fun v hl => ⟨fun hc => next (step_supplyInput_outOfTurn hc hl), fun hc => ?supplied,
      fun hc => next (step_faulted_supplyInput hc hl)⟩,
    fun p hl => step_load_cases hl h, ?reading⟩
  case running =>
    rcases step_running_cases ⟨hc, .inr hl⟩ h with ⟨i, -, he⟩ | ⟨e, -, rfl⟩
    · cases effect_answers he with
      | silent _ hctl _ hresp => exact .inl ⟨hctl, hresp⟩
      | output a v p _ _ _ hstate => subst hstate; exact .inr (.inl ⟨rfl, v, rfl⟩)
      | suspended dst _ _ hstate => subst hstate; exact .inr (.inr (.inl ⟨rfl, rfl⟩))
      | completed dst v _ hs => cases ((suppliedValue_eq_some _ _).1 hs).1
      | halted _ hstate => subst hstate; exact .inr (.inr (.inr (.inl ⟨rfl, rfl⟩)))
    · exact .inr (.inr (.inr (.inr ⟨rfl, rfl⟩)))
  case supplied =>
    obtain ⟨dst, d, -, -, ⟨-, p, -, rfl⟩ | rfl⟩ := step_supply_cases hl hc h
    · exact .inl ⟨rfl, rfl⟩
    · exact .inr ⟨d, rfl⟩
  case reading =>
    rintro (hl | ⟨a, hl⟩)
    · rw [next (step_status hl), respond_ctl]
    · rw [next (step_peek hl), respond_ctl]
  · obtain ⟨rest, hcalls⟩ := List.head?_eq_some_iff.1 hl
    exact next (step_halted_resume hc hcalls)

/-! Responses. -/

/-- An instruction answers nothing, or ends the transaction in progress with one response. -/
theorem effect_oneResponse {i : Instr} {s t : State} (h : Effect i s t) :
    (t.responses = s.responses ∧ t.calls = s.calls) ∨ ∃ r, t.responses = r :: s.responses ∧ t.calls = s.calls.tail := by
  cases effect_answers h with
  | silent _ _ hcalls hresp => exact .inl ⟨hresp, hcalls⟩
  | completed _ _ _ _ _ hcalls hresp => exact .inr ⟨_, hresp, hcalls⟩
  | output _ _ _ _ _ _ hstate | suspended _ _ _ hstate | halted _ hstate =>
    subst hstate; exact .inr ⟨_, rfl, rfl⟩

theorem exec_oneResponse {i : Instr} {s t : State} (h : exec i s = .next t) :
    (t.responses = s.responses ∧ t.calls = s.calls) ∨ ∃ r, t.responses = r :: s.responses ∧ t.calls = s.calls.tail := by
  rcases exec_cases h with he | ⟨e, rfl, -⟩
  · exact effect_oneResponse he
  · exact .inr ⟨_, rfl, rfl⟩

/-- Settles O40: a response and the end of its transaction are one operation of the state. -/
theorem oneResponseEndsOneTransaction : Obligations.OneResponseEndsOneTransaction := by
  intro s t h
  cases step_cases h with
  | idle _ _ hstate => subst hstate; exact .inl ⟨rfl, rfl⟩
  | ran i _ _ hx => exact exec_oneResponse (s := { s with ctl := .ready }) hx
  | completed v dst _ _ _ hx => exact exec_oneResponse hx
  | loaded p hl hstate =>
    refine .inr ?_
    rcases step_load_cases hl h with ⟨-, hresp⟩ | ⟨-, -, hresp⟩ <;>
      exact ⟨_, hresp, by rw [hstate, load_calls]⟩
  | fetchFault _ _ _ hstate | repeated _ _ _ hstate | outOfTurn _ _ _ hstate | latched _ _ _ hstate
  | peeked _ _ hstate | asked _ hstate => subst hstate; exact .inr ⟨_, rfl, rfl⟩

/-- The responses whose origin claims ask for: that of a Halt and that of an Output. -/
def Response.isOutputOrHalted (r : Response) : Bool :=
  match r with
  | .output _ => true
  | .halted => true
  | .ack | .inputRequested | .fault _ _ | .value _ | .invalid | .status _ _ _ _ _ => false

theorem peekResponse_plain (s : State) (a : Int) : (peekResponse s a).isOutputOrHalted = false := by
  unfold peekResponse
  split <;> rfl

/-- R30, R190: `Halted` and `Output` come from an instruction that a `resume` executed, or from a Halted machine that is
resumed. -/
theorem step_outputOrHalted {s t : State} {r : Response} (h : step s = .next t) (hr : t.responses = r :: s.responses)
    (hends : r.isOutputOrHalted = true) :
    (∃ i, Running s ∧ fetchInstr s = .ok i ∧ Effect i { s with ctl := .ready } t) ∨
      (r = .halted ∧ s.ctl = .halted ∧ t = s.respond r) := by
  have same {r' : Response} (hr' : t.responses = r' :: s.responses) : r' = r := (List.cons.inj (hr'.symm.trans hr)).1
  have other {r' : Response} (hplain : r'.isOutputOrHalted = false) : t.responses ≠ r' :: s.responses := fun hr' => by
    rw [same hr', hends] at hplain
    cases hplain
  cases step_cases h with
  | idle _ _ hstate => subst hstate; exact absurd hr (List.cons_ne_self _ _).symm
  | fetchFault e _ _ hstate => subst hstate; exact absurd rfl (other rfl)
  | ran i hrun hf hx =>
    rcases ran_cases hf hx with he | ⟨e, -, rfl⟩
    · exact .inl ⟨i, hrun, hf, he⟩
    · exact absurd rfl (other rfl)
  | completed v dst hl hc hf hx =>
    obtain ⟨d, -, ⟨-, p, -, rfl⟩ | rfl⟩ := completed_cases hl hc hf hx <;> exact absurd rfl (other rfl)
  | repeated r' _ hwhich hstate =>
    subst hstate
    rcases hwhich with ⟨-, rfl⟩ | ⟨hc, rfl⟩ | ⟨-, rfl⟩
    · exact absurd rfl (other rfl)
    · obtain rfl := same rfl
      exact .inr ⟨rfl, hc, rfl⟩
    · exact absurd rfl (other rfl)
  | loaded p hl _ =>
    rcases step_load_cases hl h with ⟨-, hresp⟩ | ⟨-, -, hresp⟩ <;> exact absurd hresp (other rfl)
  | peeked a _ hstate => subst hstate; exact absurd rfl (other (peekResponse_plain s a))
  | outOfTurn _ _ _ hstate | latched _ _ _ hstate | asked _ hstate => subst hstate; exact absurd rfl (other rfl)

/-- Settles O41: of the instructions a `resume` executes, only Output answers with a value. -/
theorem outputComesFromOutput : Obligations.OutputComesFromOutput := by
  intro s t v h hr
  obtain ⟨i, -, hf, he⟩ := (step_outputOrHalted h hr rfl).resolve_right (by simp)
  cases effect_answers he with
  | output a v' p hi hv hp hstate =>
    subst hi hstate
    obtain rfl : v' = v := Response.output.inj (List.cons.inj hr).1
    exact ⟨a, hf, hv, hp, rfl⟩
  | silent _ _ _ hresp => exact absurd (hresp.symm.trans hr) (List.cons_ne_self _ _).symm
  | completed _ _ _ _ _ _ hresp => cases (List.cons.inj (hresp.symm.trans hr)).1
  | suspended _ _ _ hstate | halted _ hstate =>
    subst hstate; cases (List.cons.inj hr).1

/-- Settles O42: the machine was Halted already, or the instruction executed is a Halt, whose word stands at `pc`. -/
theorem haltedResponseIsNormalEnd : Obligations.HaltedResponseIsNormalEnd := by
  intro s t hinv h hr
  have noCause : s.ctl ≠ .faulted → s.cause = .none := fun hc => by simpa using mt hinv.faultedIffCause.2 hc
  rcases step_outputOrHalted h hr rfl with ⟨i, hrun, hf, he⟩ | ⟨-, hc, rfl⟩
  · have hs := not_faulted_of_running hrun
    cases effect_answers he with
    | halted hi hstate =>
      subst hi hstate
      obtain ⟨-, -, hword⟩ := fetchInstr_wellFormed hf
      exact ⟨⟨rfl, noCause hs⟩, rfl, rfl, rfl, hword⟩
    | silent _ _ _ hresp => exact absurd (hresp.symm.trans hr) (List.cons_ne_self _ _).symm
    | completed _ _ _ _ _ _ hresp => cases (List.cons.inj (hresp.symm.trans hr)).1
    | output _ _ _ _ _ _ hstate | suspended _ _ _ hstate => subst hstate; cases (List.cons.inj hr).1
  · exact ⟨⟨hc, noCause (by simp [hc])⟩, rfl, rfl, rfl, (hinv.haltedAtHalt hc).2⟩

/-! Memory, base and run state outside `load`. -/

/-- Settles O46: only the effect of AdjustRelativeBase writes the base. -/
theorem onlyAdjustWritesBase : Obligations.OnlyAdjustWritesBase := by
  intro s t h hl hne
  cases step_cases h with
  | ran i hr hf hx =>
    rcases ran_cases hf hx with he | ⟨e, -, rfl⟩
    · obtain ⟨a, rfl⟩ := (effect_rb he).resolve_left hne
      exact ⟨hr, a, hf⟩
    · exact absurd (raise_rb s e) hne
  | completed v dst hv hc hf hx =>
    obtain ⟨d, -, ⟨-, p, -, rfl⟩ | rfl⟩ := completed_cases hv hc hf hx <;> exact absurd rfl hne
  | loaded p hp _ => exact absurd hp (hl p)
  | idle _ _ hstate | fetchFault _ _ _ hstate | repeated _ _ _ hstate | outOfTurn _ _ _ hstate | latched _ _ _ hstate
  | peeked _ _ hstate | asked _ hstate => subst hstate; exact absurd rfl hne

/-- Settles O47: a cell that a step does not store to reads as before, and a store is to the effective address of the
destination. -/
theorem memoryChangesOnlyAtDestination : Obligations.MemoryChangesOnlyAtDestination := by
  intro s t a h hl hne
  obtain ⟨i, dst, hf, hdst, ha, -⟩ : StoresAt s a := not_not.1 fun hno => hne (step_read h hl hno)
  exact ⟨i, dst, hf, hdst, ha⟩

/-- An effect of an instruction that a `resume` executes does not lead to Fresh. -/
theorem effect_not_fresh {i : Instr} {s t : State} (h : Effect i s t) (hs : s.ctl ≠ .fresh) : t.ctl ≠ .fresh := by
  cases effect_answers h with
  | silent _ hctl => rw [hctl]; exact hs
  | completed _ _ _ _ hctl => simp [hctl]
  | output _ _ _ _ _ _ hstate => subst hstate; exact hs
  | suspended _ _ _ hstate | halted _ hstate => subst hstate; simp

/-- Settles O48: what leaves a machine Fresh is `peek` or `status`, which only respond. -/
theorem freshOnlyBeforeFirstResume : Obligations.FreshOnlyBeforeFirstResume := by
  intro s t h hl ht
  cases step_cases h with
  | ran i _ hf hx =>
    rcases ran_cases hf hx with he | ⟨e, -, rfl⟩
    · exact absurd ht (effect_not_fresh he (by simp))
    · cases ht
  | completed v dst hv hc hf hx =>
    obtain ⟨d, -, ⟨-, p, -, rfl⟩ | rfl⟩ := completed_cases hv hc hf hx <;> cases ht
  | loaded p hp _ => exact absurd hp (hl p)
  | idle _ hc hstate => subst hstate; exact absurd ht hc.1
  | fetchFault _ _ _ hstate | outOfTurn _ _ _ hstate => subst hstate; cases ht
  | repeated r _ hwhich hstate =>
    subst hstate
    rcases hwhich with ⟨hc, -⟩ | ⟨hc, -⟩ | ⟨hc, -⟩ <;> cases hc.symm.trans ht
  | latched v _ hc hstate => subst hstate; cases hc.symm.trans ht
  | peeked a hp hstate => subst hstate; exact ⟨ht, by simp [hp], rfl, rfl, rfl⟩
  | asked hp hstate => subst hstate; exact ⟨ht, by simp [hp], rfl, rfl, rfl⟩

end Sys2Proof.Machine
end

section
/-!
PROOFS. The invariant R38: it holds at reset, every step keeps it, and from it no step stops; and so a `resume` hangs or
responds (R200). Settles O43 to O45 and O53.
-/
namespace Sys2Proof.Machine

/-! The invariant of the state after each kind of operation. -/

/-- The memory half of the invariant: canonical, and nothing listed beyond the capacity. -/
def MemInv (c : Config) (m : Memory) : Prop := m.wf ∧ ∀ x ∈ m.cells, x.1 < c.memCapacity

theorem memInv_of_inv {s : State} (h : StateInv s) : MemInv s.cfg s.mem := ⟨h.memCanonical, h.memInRange⟩

theorem memInv_write {s : State} (h : MemInv s.cfg s.mem) {a : Nat} (ha : s.validAddr a) (v : Word) :
    MemInv s.cfg (s.mem.write a v) := ⟨Memory.write_wf h.1 a v, Memory.write_inRange (Int.ofNat_lt.1 ha.2) h.2⟩

/-- R38 for a machine without a fault: what is left to show is memory and the run state's clause. -/
theorem inv_of_noFault {t : State} (hmem : MemInv t.cfg t.mem) (hctl : t.ctl ≠ .faulted) (hcause : t.cause = .none)
    (hinfo : t.finfo = 0) (hawait : t.ctl = .awaitingInput → ∃ dst, fetchInstr t = .ok (.input dst))
    (hhalt : t.ctl = .halted → t.validAddr t.pc.val ∧ t.mem.read t.pc.val.toNat = word 99)
    (hfresh : t.ctl = .fresh → t.pc = .zero ∧ t.rb = .zero) : StateInv t where
  memCanonical := hmem.1
  memInRange := hmem.2
  awaitingAtInput := hawait
  haltedAtHalt := hhalt
  faultedIffCause := by simp [hctl, hcause]
  infoOnlyWhenFaulted := fun _ => hinfo
  freshAtEntry := hfresh
  infoWidth := fun _ => by rw [hinfo]; decide
  infoOfLoad := fun h => by simp [hcause] at h

/-- R38 (c), (d): a machine that is not Faulted has no cause and no information. -/
theorem noFault_of_inv {s : State} (h : StateInv s) (hc : s.ctl ≠ .faulted) : s.cause = .none ∧ s.finfo = 0 :=
  ⟨by simpa using mt h.faultedIffCause.2 hc, h.infoOnlyWhenFaulted hc⟩

/-- A response touches nothing that the invariant speaks of. -/
theorem inv_respond {s : State} (h : StateInv s) (r : Response) : StateInv (s.respond r) where
  memCanonical := h.memCanonical
  memInRange := h.memInRange
  awaitingAtInput := h.awaitingAtInput
  haltedAtHalt := h.haltedAtHalt
  faultedIffCause := h.faultedIffCause
  infoOnlyWhenFaulted := h.infoOnlyWhenFaulted
  freshAtEntry := h.freshAtEntry
  infoWidth := h.infoWidth
  infoOfLoad := h.infoOfLoad

/-- R230: fault entry, with a cause, keeps the invariant; of the run states only Faulted is left. -/
theorem inv_raise {s : State} (hmem : MemInv s.cfg s.mem) {e : Raised} (hcause : e.cause ≠ .none)
    (hwidth : e.cause ≠ .loadTooLarge → -18446744073709551616 ≤ e.info ∧ e.info < 18446744073709551616)
    (hload : e.cause = .loadTooLarge → s.cfg.memCapacity < e.info) : StateInv (s.raise e) where
  memCanonical := hmem.1
  memInRange := hmem.2
  awaitingAtInput := by simp
  haltedAtHalt := by simp
  faultedIffCause := by simp [hcause]
  infoOnlyWhenFaulted := by simp
  freshAtEntry := by simp
  infoWidth := hwidth
  infoOfLoad := hload

/-- Fault entry with 65 bits of information and a cause that is not `load`'s. -/
theorem inv_raise_of_width {s : State} (h : StateInv s) {e : Raised} (hcause : e.cause ≠ .none)
    (hnotLoad : e.cause ≠ .loadTooLarge)
    (hwidth : -18446744073709551616 ≤ e.info ∧ e.info < 18446744073709551616) : StateInv (s.raise e) :=
  inv_raise (memInv_of_inv h) hcause (fun _ => hwidth) fun hl => absurd hl hnotLoad

/-- A fault of the program. -/
theorem inv_raise_of_guest {s : State} (h : StateInv s) {e : Raised} (he : GuestRaised e) : StateInv (s.raise e) := by
  obtain ⟨h1, h8⟩ := he.code
  refine inv_raise_of_width h (fun hc => ?_) (fun hc => ?_) he.width
  · rw [hc] at h1; exact absurd h1 (by decide)
  · rw [hc] at h8; exact absurd h8 (by decide)

/-- R191: both outcomes of `load`, from any state. -/
theorem inv_load (p : List Word) (s : State) : StateInv (load p s) := by
  by_cases hp : p.length ≤ s.cfg.memCapacity
  · rw [load_fits hp]
    exact inv_of_noFault
      ⟨Memory.ofProgram_wf p, fun c hc => Nat.lt_of_lt_of_le (Memory.ofProgram_inRange p c hc) hp⟩
      (by simp) rfl rfl (by simp) (by simp) fun _ => ⟨rfl, rfl⟩
  · rw [load_tooLarge hp]
    exact inv_raise ⟨Memory.ofCells_wf _ _, Memory.ofCells_inRange _ _⟩ (by simp) (by simp)
      fun _ => Int.ofNat_lt.2 (Nat.lt_of_not_le hp)

/-- An effect keeps the memory half. -/
theorem memInv_effect {i : Instr} {s t : State} (h : MemInv s.cfg s.mem) (he : Effect i s t) : MemInv t.cfg t.mem := by
  obtain ⟨-, -, hcfg, -, -⟩ := effect_keeps he
  rw [hcfg]
  rcases effect_mem he with hm | ⟨dst, a, v, -, -, ha, hm, -⟩
  · rw [hm]; exact h
  · rw [hm]; exact memInv_write h ha v

/-- R38: an instruction that a `resume` fetched and executed leaves a Ready machine, or one that awaits at that Input, or one
that is Halted at that Halt. -/
theorem inv_ran {i : Instr} {s t : State} (h : StateInv s) (hs : s.ctl ≠ .faulted) (hf : fetchInstr s = .ok i)
    (he : Effect i { s with ctl := .ready } t) : StateInv t := by
  obtain ⟨hcause, hinfo⟩ := noFault_of_inv h hs
  obtain ⟨hcause', hinfo', -, -, -⟩ := effect_keeps he
  have hmem₀ : MemInv s.cfg s.mem := memInv_of_inv h
  have hmem : MemInv t.cfg t.mem := memInv_effect (s := { s with ctl := .ready }) hmem₀ he
  have ready (hctl : t.ctl = .ready) : StateInv t :=
    inv_of_noFault hmem (by simp [hctl]) (hcause'.trans hcause) (hinfo'.trans hinfo) (by simp [hctl]) (by simp [hctl])
      (by simp [hctl])
  cases effect_answers he with
  | silent _ hctl => exact ready hctl
  | output _ _ _ _ _ _ hstate => exact ready (by subst hstate; rfl)
  | completed _ _ _ _ hctl => exact ready hctl
  | suspended dst hi _ hstate =>
    subst hi hstate
    exact inv_of_noFault hmem (by simp) hcause hinfo (fun _ => ⟨dst, hf⟩) (by simp) (by simp)
  | halted hi hstate =>
    subst hi hstate
    obtain ⟨-, hword⟩ := fetchInstr_wellFormed hf
    exact inv_of_noFault hmem (by simp) hcause hinfo (by simp) (fun _ => hword) (by simp)

/-- R38: a completed Input leaves a Ready machine. -/
theorem inv_completed {s : State} {d : Int} (h : StateInv s) (hc : s.ctl = .awaitingInput) (hd : s.validAddr d)
    (v p : Word) :
    StateInv (State.respond { s with mem := s.mem.write d.toNat v, pc := p, ctl := .ready } .ack) := by
  obtain ⟨hcause, hinfo⟩ := noFault_of_inv h (by simp [hc])
  have hnat : s.validAddr (d.toNat : Int) := by rw [Int.toNat_of_nonneg hd.1]; exact hd
  exact inv_of_noFault (memInv_write (memInv_of_inv h) hnat v) (by simp) hcause hinfo (by simp) (by simp) (by simp)

/-- Settles O44: each way a step answers is a response, a fault entry, a `load`, or the effect of an instruction. -/
theorem stepKeepsInvariant : Obligations.StepKeepsInvariant := by
  intro s t h hstep
  cases step_cases hstep with
  | idle _ _ hstate => subst hstate; exact h
  | fetchFault e _ hf hstate => subst hstate; exact inv_raise_of_guest h (guestRaised_of_fetch hf)
  | ran i hr hf hx =>
    rcases ran_cases hf hx with he | ⟨e, hguest, rfl⟩
    · exact inv_ran h (not_faulted_of_running hr) hf he
    · exact inv_raise_of_guest h hguest
  | completed v dst hl hc hf hx =>
    obtain ⟨d, hd, ⟨hv, p, -, rfl⟩ | rfl⟩ := completed_cases hl hc hf hx
    · exact inv_completed h hc hv v p
    · obtain ⟨hlow, hhigh⟩ := effectiveAddress_bounds hd
      exact inv_raise_of_width h (by simp) (by simp) ⟨hlow, by simp only; omega⟩
  | outOfTurn _ _ _ hstate => subst hstate; exact inv_raise_of_width h (by simp) (by simp) (by simp)
  | loaded p _ hstate => subst hstate; exact inv_load p s
  | repeated _ _ _ hstate | latched _ _ _ hstate | peeked _ _ hstate | asked _ hstate =>
    subst hstate; exact inv_respond h _

/-- Settles O43: memory is empty and the machine Fresh at its entry. -/
theorem resetSatisfiesInvariant : Obligations.ResetSatisfiesInvariant :=
  inv_of_noFault (t := .reset) ⟨Memory.empty_wf, by simp [State.reset]⟩ (by simp [State.reset]) rfl rfl
    (by simp [State.reset]) (by simp [State.reset]) fun _ => ⟨rfl, rfl⟩

/-! No step stops. -/

theorem step_running_isNext {s : State} (h : Running s) : ∃ t, step s = .next t := by
  cases hf : fetchInstr s with
  | ok i => rw [step_of_fetch h hf]; exact exec_isNext _ _
  | error e => exact ⟨_, step_of_fetchError h hf⟩

/-- A `resume` is answered in every run state. -/
theorem step_resume_isNext {s : State} (h : s.calls.head? = some .resume) : ∃ t, step s = .next t := by
  cases hc : s.ctl with
  | fresh => exact step_running_isNext ⟨.inl hc, .inr h⟩
  | ready => exact step_running_isNext ⟨.inr hc, .inr h⟩
  | awaitingInput => exact ⟨_, step_awaiting_resume hc h⟩
  | halted =>
    obtain ⟨rest, hl⟩ := List.head?_eq_some_iff.1 h
    exact ⟨_, step_halted_resume hc hl⟩
  | faulted => exact ⟨_, step_faulted_resume hc h⟩

/-- A `supply_input` is answered in every run state of a machine that awaits, if at all, at an Input. -/
theorem step_supplyInput_isNext {s : State} {v : Word} (h : s.calls.head? = some (.supplyInput v))
    (hawait : s.ctl = .awaitingInput → ∃ dst, fetchInstr s = .ok (.input dst)) : ∃ t, step s = .next t := by
  cases hc : s.ctl with
  | awaitingInput =>
    obtain ⟨dst, hf⟩ := hawait hc
    rw [step_of_supply hc h hf]
    exact exec_isNext _ _
  | fresh => exact ⟨_, step_supplyInput_outOfTurn (.inl hc) h⟩
  | ready => exact ⟨_, step_supplyInput_outOfTurn (.inr (.inl hc)) h⟩
  | halted => exact ⟨_, step_supplyInput_outOfTurn (.inr (.inr hc)) h⟩
  | faulted => exact ⟨_, step_faulted_supplyInput hc h⟩

/-- With no transaction left a machine runs, or is left alone. -/
theorem step_idle_isNext {s : State} (h : s.calls = []) : ∃ t, step s = .next t := by
  have hd : s.calls.head? = none := by rw [h]; rfl
  cases hc : s.ctl with
  | fresh => exact step_running_isNext ⟨.inl hc, .inl hd⟩
  | ready => exact step_running_isNext ⟨.inr hc, .inl hd⟩
  | awaitingInput | halted | faulted => exact ⟨s, step_idle h (by simp [hc])⟩

/-- Settles O45: each transaction is answered; clause (a) of R38 is what `supply_input` needs. -/
theorem stepNeverStops : Obligations.StepNeverStops := by
  intro s hinv
  rcases h : s.calls with _ | ⟨c, rest⟩
  · exact step_idle_isNext h
  · have hd := List.head?_eq_some_iff.2 ⟨rest, h⟩
    cases c with
    | load p => exact ⟨_, step_load h⟩
    | resume => exact step_resume_isNext hd
    | supplyInput v => exact step_supplyInput_isNext hd hinv.awaitingAtInput
    | peek a => exact ⟨_, step_peek hd⟩
    | status => exact ⟨_, step_status hd⟩

/-! A `resume` hangs or responds (R200). -/

/-- From a state that satisfies the invariant, every number of steps is answered. -/
theorem runFor_isNext {s : State} (h : StateInv s) (k : Nat) : ∃ t, runFor k s = .next t := by
  have keep : ∀ u, StateInv u → ∃ t, step u = .next t ∧ StateInv t := fun u hu => by
    obtain ⟨t, ht⟩ := stepNeverStops u hu
    exact ⟨t, ht, stepKeepsInvariant u t hu ht⟩
  obtain ⟨t, ht, -⟩ := runFor_answered keep k h
  exact ⟨t, ht⟩

/-- After `k` steps the transaction in progress has not responded. -/
def SilentFor (s : State) (k : Nat) : Prop := ∃ u, runFor k s = .next u ∧ u.responses = s.responses

theorem silentFor_iff {s u : State} {k : Nat} (h : runFor k s = .next u) :
    SilentFor s k ↔ u.responses = s.responses := by
  refine ⟨?_, fun hu => ⟨u, h, hu⟩⟩
  rintro ⟨v, hv, hresp⟩
  obtain rfl : u = v := Host.Outcome.next.inj (h.symm.trans hv)
  exact hresp

/-- The step with the response is not silent. -/
theorem not_silentFor_of_response {s t : State} {r : Response} {k : Nat} (h : runFor k s = .next t)
    (hr : t.responses = r :: s.responses) : ¬ SilentFor s k := fun hsilent =>
  List.cons_ne_self _ _ (hr.symm.trans ((silentFor_iff h).1 hsilent))

/-- A run that is not silent for ever has a first step with a response. -/
theorem responds_of_not_hangs {s : State} (hinv : StateInv s) (h : ¬ Hangs s) : ∃ r t, Responds s r t := by
  have hex : ∃ k, ¬ SilentFor s k := not_forall.1 h
  classical
  obtain ⟨m, hm⟩ : ∃ m, Nat.find hex = m + 1 := Nat.exists_eq_add_one.2 <| Nat.pos_of_ne_zero fun h0 =>
    Nat.find_spec hex (h0 ▸ ⟨s, runFor_zero s, rfl⟩)
  have before : ∀ j, j ≤ m → SilentFor s j := fun j hj => not_not.1 (Nat.find_min hex (by omega))
  have after : ¬ SilentFor s (m + 1) := hm ▸ Nat.find_spec hex
  obtain ⟨t, ht⟩ := runFor_isNext hinv (m + 1)
  obtain ⟨u, hu, hlast⟩ := runFor_succ_last.1 ht
  have husilent := (silentFor_iff hu).1 (before m le_rfl)
  rw [silentFor_iff ht] at after
  rcases oneResponseEndsOneTransaction u t hlast with ⟨hresp, -⟩ | ⟨r, hresp, -⟩
  · exact absurd (hresp.trans husilent) after
  · exact ⟨r, t, m, ht, husilent ▸ hresp, before⟩

/-- The number of steps to the response is unique, and so are the response and the state it leaves. -/
theorem responds_unique {s t t' : State} {r r' : Response} (h : Responds s r t) (h' : Responds s r' t') :
    r = r' ∧ t = t' := by
  obtain ⟨k, hrun, hresp, hbefore⟩ := h
  obtain ⟨k', hrun', hresp', hbefore'⟩ := h'
  have hk : k = k' := by
    rcases Nat.lt_trichotomy k k' with hlt | heq | hgt
    · exact absurd (hbefore' (k + 1) hlt) (not_silentFor_of_response hrun hresp)
    · exact heq
    · exact absurd (hbefore (k' + 1) hgt) (not_silentFor_of_response hrun' hresp')
  subst hk
  obtain rfl : t = t' := Host.Outcome.next.inj (hrun.symm.trans hrun')
  exact ⟨(List.cons.inj (hresp.symm.trans hresp')).1, rfl⟩

/-- Settles O53: a run of answered steps has a first response or none. -/
theorem resumeHangsOrRespondsOnce : Obligations.ResumeHangsOrRespondsOnce := by
  intro s hinv _
  refine ⟨?_, fun hhang r t hresponds => ?_, fun r t r' t' => responds_unique⟩
  · exact or_iff_not_imp_left.2 (responds_of_not_hangs hinv)
  · obtain ⟨k, hrun, hresp, -⟩ := hresponds
    exact not_silentFor_of_response hrun hresp (hhang (k + 1))

end Sys2Proof.Machine
end

section
/-!
PROOFS. The canonical form makes memory extensional (spec/20_memory.md R33; log 2). Settles O14.
-/
namespace Sys2Proof.Machine

/-- R55: an address that is not listed reads 0. -/
theorem readCells_of_not_listed {cells : List (Nat × Word)} {a : Nat} (h : ∀ c ∈ cells, c.1 ≠ a) :
    readCells cells a = .zero := by
  induction cells with
  | nil => rfl
  | cons c rest ih =>
    rw [readCells, if_neg (h c List.mem_cons_self)]
    exact ih fun d hd => h d (List.mem_cons_of_mem _ hd)

theorem readCells_cons_same (c : Nat × Word) (rest : List (Nat × Word)) : readCells (c :: rest) c.1 = c.2 := if_pos rfl

/-- In a canonical list the first address is the lowest. -/
theorem readCells_below {c : Nat × Word} {rest : List (Nat × Word)} (h : (Memory.mk (c :: rest)).wf) {a : Nat}
    (ha : a < c.1) : readCells (c :: rest) a = .zero := by
  refine readCells_of_not_listed fun d hd => ?_
  rcases List.mem_cons.1 hd with rfl | hd
  · exact ha.ne'
  · exact (ha.trans (List.rel_of_pairwise_cons h.1 hd)).ne'

theorem wf_tail {c : Nat × Word} {rest : List (Nat × Word)} (h : (Memory.mk (c :: rest)).wf) : (Memory.mk rest).wf :=
  ⟨h.1.of_cons, fun d hd => h.2 d (List.mem_cons_of_mem _ hd)⟩

/-- The tail of a canonical list reads as the whole, but for the head's address, where it reads 0. -/
theorem readCells_tail {c : Nat × Word} {rest : List (Nat × Word)} (h : (Memory.mk (c :: rest)).wf) (a : Nat) :
    readCells rest a = if c.1 = a then .zero else readCells (c :: rest) a := by
  by_cases hc : c.1 = a
  · rw [if_pos hc]
    exact readCells_of_not_listed fun d hd => hc ▸ (List.rel_of_pairwise_cons h.1 hd).ne'
  · rw [if_neg hc, readCells, if_neg hc]

/-- Of two canonical lists that read alike, the second does not begin above the first. -/
theorem head_le_of_reads {c d : Nat × Word} {xs ys : List (Nat × Word)} (hx : (Memory.mk (c :: xs)).wf)
    (hy : (Memory.mk (d :: ys)).wf) (h : ∀ a, readCells (c :: xs) a = readCells (d :: ys) a) : d.1 ≤ c.1 := by
  refine Nat.le_of_not_lt fun hlt => hx.2 c List.mem_cons_self ?_
  rw [← readCells_cons_same c xs, h, readCells_below hy hlt]

/-- Canonical lists that read alike are equal, cell by cell from the lowest address on. -/
theorem cells_eq_of_reads (xs ys : List (Nat × Word)) (hx : (Memory.mk xs).wf) (hy : (Memory.mk ys).wf)
    (h : ∀ a, readCells xs a = readCells ys a) : xs = ys := by
  induction xs generalizing ys with
  | nil =>
    cases ys with
    | nil => rfl
    | cons d ys => exact absurd ((readCells_cons_same d ys).symm.trans (h d.1).symm) (hy.2 d List.mem_cons_self)
  | cons c xs ih =>
    cases ys with
    | nil => exact absurd ((readCells_cons_same c xs).symm.trans (h c.1)) (hx.2 c List.mem_cons_self)
    | cons d ys =>
      have haddr : c.1 = d.1 :=
        Nat.le_antisymm (head_le_of_reads hy hx fun a => (h a).symm) (head_le_of_reads hx hy h)
      have hval : c.2 = d.2 := by
        rw [← readCells_cons_same c xs, h, haddr, readCells_cons_same]
      have htail : xs = ys := ih ys (wf_tail hx) (wf_tail hy) fun a => by
        rw [readCells_tail hx, readCells_tail hy, haddr, h]
      rw [htail, Prod.ext haddr hval]

/-- Settles O14: a memory is its list of cells. -/
theorem equalReadsEqualMemory : Obligations.EqualReadsEqualMemory := fun m n hm hn h =>
  congrArg Memory.mk (cells_eq_of_reads m.cells n.cells hm hn h)

end Sys2Proof.Machine
end

section
/-!
PROOFS. Changes of the state that an instruction does not see: another base, where no parameter is Relative
(spec/45_relbase.md R181), and a larger capacity, where no access is out of bounds (spec/92_eei_decisions.md). The steps
of an instruction run alike before and after such a change `g`, but for the faults `esc` that the change may take away.
Settles O51 and O56.
-/
namespace Sys2Proof.Machine

/-! Computations that run alike. -/

/-- `y` has the outcome of `x`, changed by `g`, unless `x` raises one of the faults `esc`. -/
def Tracks {α β : Type} (esc : Raised → Prop) (g : α → β) (x : Except Raised α) (y : Except Raised β) : Prop :=
  y = x.map g ∨ ∃ e, x = .error e ∧ esc e

section
variable {α β γ δ : Type} {esc : Raised → Prop}

theorem tracks_refl (x : Except Raised α) : Tracks esc id x x := .inl (by cases x <;> rfl)

theorem tracks_ok {g : α → β} (a : α) : Tracks esc g (.ok a) (.ok (g a)) := .inl rfl

theorem tracks_bind {g : α → β} {g' : γ → δ} {x : Except Raised α} {y : Except Raised β} {k : α → Except Raised γ}
    {k' : β → Except Raised δ} (h : Tracks esc g x y) (hk : ∀ a, Tracks esc g' (k a) (k' (g a))) :
    Tracks esc g' (x >>= k) (y >>= k') := by
  rcases h with rfl | ⟨e, rfl, he⟩
  · cases x with
    | ok a => exact hk a
    | error e => exact .inl rfl
  · exact .inr ⟨e, rfl, he⟩

theorem ok_of_tracks {g : α → β} {x : Except Raised α} {y : Except Raised β} {a : α} (h : Tracks esc g x y)
    (hx : x = .ok a) : y = .ok (g a) := by
  subst hx
  rcases h with rfl | ⟨e, he, -⟩
  · rfl
  · cases he

theorem error_of_tracks {g : α → β} {x : Except Raised α} {y : Except Raised β} {e : Raised} (h : Tracks esc g x y)
    (hx : x = .error e) : y = .error e ∨ esc e := by
  subst hx
  rcases h with rfl | ⟨e', he, hesc⟩
  · exact .inl rfl
  · cases he; exact .inr hesc

end

/-! Changes an instruction does not see. -/

/-- The change `g`, at the state `s`, is seen by no access of an instruction, and by nothing else it does: `g` touches
neither `pc` nor `ctl` nor the caller's side. -/
structure Unseen (esc : Raised → Prop) (g : State → State) (s : State) : Prop where
  read : ∀ k a, Tracks esc id (memRead k s a) (memRead k (g s) a)
  write : ∀ a v, Tracks esc g (memWrite s a v) (memWrite (g s) a v)
  supplied : suppliedValue (g s) = suppliedValue s
  pc : ∀ t, (g t).pc = t.pc
  setPc : ∀ t p, g { t with pc := p } = { g t with pc := p }
  setCtl : ∀ t c, g { t with ctl := c } = { g t with ctl := c }
  respond : ∀ t r, g (t.respond r) = (g t).respond r
  raise : ∀ t e, g (t.raise e) = (g t).raise e

section
variable {esc : Raised → Prop} {g : State → State} {s : State} (U : Unseen esc g s)
include U

theorem advance_tracks (n : Nat) (t : State) : Tracks esc g (advance n t) (advance n (g t)) := by
  refine .inl ?_
  unfold advance
  rw [U.pc]
  cases Word.ofInt? (t.pc.val + n) with
  | none => rfl
  | some p => exact congrArg _ (U.setPc t p).symm

theorem readOperand_tracks {p : Param} (hp : effectiveAddress (g s) p = effectiveAddress s p) :
    Tracks esc id (readOperand s p) (readOperand (g s) p) := by
  unfold readOperand
  rw [hp]
  cases effectiveAddress s p with
  | none => exact tracks_refl _
  | some a => exact U.read .read a

omit U in
theorem writeAddress_tracks (w : Word) {p : Param} (hp : effectiveAddress (g s) p = effectiveAddress s p) :
    Tracks esc id (writeAddress w s p) (writeAddress w (g s) p) := by
  unfold writeAddress
  rw [hp]
  exact tracks_refl _

theorem storeResult_tracks (w : Word) (f : Int → Int → Int) {a b dst : Param}
    (ha : effectiveAddress (g s) a = effectiveAddress s a) (hb : effectiveAddress (g s) b = effectiveAddress s b)
    (hd : effectiveAddress (g s) dst = effectiveAddress s dst) :
    Tracks esc g (storeResult w f a b dst s) (storeResult w f a b dst (g s)) :=
  tracks_bind (readOperand_tracks U ha) fun _ => tracks_bind (readOperand_tracks U hb) fun _ =>
    tracks_bind (writeAddress_tracks w hd) fun d => tracks_bind (tracks_refl _) fun r =>
      tracks_bind (U.write d r) fun t => advance_tracks U 4 t

theorem jumpWhen_tracks (taken : Word → Bool) {a b : Param} (ha : effectiveAddress (g s) a = effectiveAddress s a)
    (hb : effectiveAddress (g s) b = effectiveAddress s b) :
    Tracks esc g (jumpWhen taken a b s) (jumpWhen taken a b (g s)) := by
  refine tracks_bind (readOperand_tracks U ha) fun c => tracks_bind (readOperand_tracks U hb) fun t => ?_
  simp only [id_eq]
  split
  · exact U.setPc s t ▸ tracks_ok _
  · exact advance_tracks U 3 s

theorem outputEmits_tracks {a : Param} (ha : effectiveAddress (g s) a = effectiveAddress s a) :
    Tracks esc g (outputEmits a s) (outputEmits a (g s)) :=
  tracks_bind (readOperand_tracks U ha) fun _ => tracks_bind (advance_tracks U 2 s) fun t =>
    U.respond t _ ▸ tracks_ok _

theorem inputSuspends_tracks (w : Word) {dst : Param} (hd : effectiveAddress (g s) dst = effectiveAddress s dst) :
    Tracks esc g (inputSuspends w dst s) (inputSuspends w dst (g s)) := by
  refine tracks_bind (writeAddress_tracks w hd) fun _ => ?_
  rw [← U.setCtl, ← U.respond]
  exact tracks_ok _

theorem inputCompletes_tracks (w v : Word) {dst : Param} (hd : effectiveAddress (g s) dst = effectiveAddress s dst) :
    Tracks esc g (inputCompletes w v dst s) (inputCompletes w v dst (g s)) := by
  refine tracks_bind (writeAddress_tracks w hd) fun d => tracks_bind (U.write d v) fun t =>
    tracks_bind (advance_tracks U 2 t) fun u => ?_
  rw [← U.setCtl, ← U.respond]
  exact tracks_ok _

theorem commit_tracks {x y : Except Raised State} {t : State} (h : Tracks esc g x y) (hx : commit s x = .next t) :
    commit (g s) y = .next (g t) ∨ ∃ e, esc e ∧ t = s.raise e := by
  rcases (commit_eq_next _ _ _).1 hx with hok | ⟨e, herror, rfl⟩
  · exact .inl ((commit_eq_next _ _ _).2 (.inl (ok_of_tracks h hok)))
  · rcases error_of_tracks h herror with hy | hesc
    · exact .inl (U.raise s e ▸ commit_of_error hy)
    · exact .inr ⟨e, hesc, rfl⟩

/-- An instruction none of whose parameters sees the change runs alike. (AdjustRelativeBase, which reads the base itself, is
left to the caller.) -/
theorem exec_tracks {i : Instr} {t : State}
    (hp : ∀ p : Param, p.mode ∈ [i.header.m1, i.header.m2, i.header.m3] →
      effectiveAddress (g s) p = effectiveAddress s p)
    (hadj : ∀ a, i = .adjustRelativeBase a → Tracks esc g (adjustBase i.word a s) (adjustBase i.word a (g s)))
    (h : exec i s = .next t) : exec i (g s) = .next (g t) ∨ ∃ e, esc e ∧ t = s.raise e := by
  cases i with
  | add a b dst | mul a b dst | lessThan a b dst | equals a b dst =>
    exact commit_tracks U (storeResult_tracks U _ _ (hp a (by simp [Instr.header])) (hp b (by simp [Instr.header]))
      (hp dst (by simp [Instr.header]))) h
  | jumpIfTrue a b | jumpIfFalse a b =>
    exact commit_tracks U (jumpWhen_tracks U _ (hp a (by simp [Instr.header])) (hp b (by simp [Instr.header]))) h
  | output a => exact commit_tracks U (outputEmits_tracks U (hp a (by simp [Instr.header]))) h
  | adjustRelativeBase a => exact commit_tracks U (hadj a rfl) h
  | halt =>
    cases h
    rw [U.respond, U.setCtl s .halted]
    exact .inl rfl
  | input dst =>
    have hd := hp dst (by simp [Instr.header])
    change execInput dst s = _ at h
    change execInput dst (g s) = _ ∨ _
    unfold execInput at h ⊢
    rw [U.supplied]
    cases hs : suppliedValue s with
    | none =>
      rw [hs] at h
      exact commit_tracks U (inputSuspends_tracks U _ hd) h
    | some v =>
      rw [hs] at h
      exact commit_tracks U (inputCompletes_tracks U _ v hd) h

theorem fetchHeader_tracks : Tracks esc id (fetchHeader s) (fetchHeader (g s)) := by
  unfold fetchHeader
  rw [U.pc]
  exact tracks_bind (U.read _ _) fun _ => tracks_refl _

theorem fetchParam_tracks (n i : Nat) : Tracks esc id (fetchParam s n i) (fetchParam (g s) n i) := by
  unfold fetchParam
  rw [U.pc]
  split
  · exact U.read _ _
  · exact tracks_refl _

theorem fetchInstr_tracks : Tracks esc id (fetchInstr s) (fetchInstr (g s)) :=
  tracks_bind (fetchHeader_tracks U) fun h => tracks_bind (fetchParam_tracks U h.op.paramCount 1) fun _ =>
    tracks_bind (fetchParam_tracks U h.op.paramCount 2) fun _ =>
      tracks_bind (fetchParam_tracks U h.op.paramCount 3) fun _ => tracks_ok _

end

/-! Another base. -/

/-- The state `s` with the base `r`. -/
def withBase (r : Word) (s : State) : State := { s with rb := r }

/-- R54 to R57: no access looks at the base, once the address is formed. -/
theorem unseen_withBase (r : Word) (s : State) : Unseen (fun _ => False) (withBase r) s where
  read _ _ := tracks_refl _
  write a v := by
    by_cases h : s.validAddr a
    · rw [memWrite_of_valid v h]
      exact .inl (memWrite_of_valid (s := withBase r s) v h)
    · rw [memWrite_of_outside v ((not_validAddr_iff s a).1 h)]
      exact .inl (memWrite_of_outside (s := withBase r s) v ((not_validAddr_iff s a).1 h))
  supplied := rfl
  pc _ := rfl
  setPc _ _ := rfl
  setCtl _ _ := rfl
  respond _ _ := rfl
  raise _ _ := rfl

/-- R181: only a Relative parameter's address depends on the base. -/
theorem effectiveAddress_withBase (r : Word) (s : State) {p : Param} (hp : p.mode ≠ .relative) :
    effectiveAddress (withBase r s) p = effectiveAddress s p := by
  unfold effectiveAddress
  cases hm : p.mode with
  | position | immediate => rfl
  | relative => exact absurd hm hp

/-- Settles O56: the other base is seen by no parameter, and no fault is lost. -/
theorem baseMattersOnlyToRelative : Obligations.BaseMattersOnlyToRelative := by
  intro i s t r h1 h2 h3 hadj h
  have hp : ∀ p : Param, p.mode ∈ [i.header.m1, i.header.m2, i.header.m3] →
      effectiveAddress (withBase r s) p = effectiveAddress s p := fun p hmem => by
    refine effectiveAddress_withBase r s fun hrel => ?_
    simp only [hrel, List.mem_cons, List.not_mem_nil, or_false] at hmem
    rcases hmem with hm | hm | hm
    exacts [h1 hm.symm, h2 hm.symm, h3 hm.symm]
  exact (exec_tracks (unseen_withBase r s) hp (fun a ha => absurd ha (hadj a)) h).resolve_right (by simp)

/-! A larger capacity. -/

theorem Access.cause_isBounds (k : Access) : k.cause.isBounds := by
  cases k
  · exact .inl rfl
  · exact .inr (.inl rfl)

/-- The state `s` with the capacity of `c`. -/
def withCapacity (c : Config) (s : State) : State := { s with cfg := c }

section
variable {s : State} {c : Config} (hle : s.cfg.memCapacity ≤ c.memCapacity)
include hle

theorem validAddr_withCapacity {a : Int} (h : s.validAddr a) : (withCapacity c s).validAddr a :=
  ⟨h.1, h.2.trans_le (Int.ofNat_le.2 hle)⟩

/-- R57: what an access raises under the smaller capacity only, it raises as an out-of-bounds fault. -/
theorem unseen_withCapacity : Unseen (fun e => e.cause.isBounds) (withCapacity c) s where
  read k a := by
    by_cases h : s.validAddr a
    · rw [memRead_of_valid k h, memRead_of_valid k (validAddr_withCapacity hle h)]
      exact tracks_ok _
    · exact .inr ⟨_, memRead_of_outside k ((not_validAddr_iff s a).1 h), k.cause_isBounds⟩
  write a v := by
    by_cases h : s.validAddr a
    · rw [memWrite_of_valid v h, memWrite_of_valid v (validAddr_withCapacity hle h)]
      exact tracks_ok _
    · exact .inr ⟨_, memWrite_of_outside v ((not_validAddr_iff s a).1 h), .inr (.inr rfl)⟩
  supplied := rfl
  pc _ := rfl
  setPc _ _ := rfl
  setCtl _ _ := rfl
  respond _ _ := rfl
  raise _ _ := rfl

/-- An instruction under a larger capacity. -/
theorem exec_withCapacity {i : Instr} {t : State} (h : exec i s = .next t) :
    exec i (withCapacity c s) = .next (withCapacity c t) ∨ ∃ e, e.cause.isBounds ∧ t = s.raise e := by
  have U := unseen_withCapacity hle
  have hadj : ∀ a, i = .adjustRelativeBase a → Tracks (fun e => e.cause.isBounds) (withCapacity c)
      (adjustBase i.word a s) (adjustBase i.word a (withCapacity c s)) := fun a _ =>
    tracks_bind (readOperand_tracks U rfl) fun _ => tracks_bind (tracks_refl _) fun _ => advance_tracks U 2 _
  exact exec_tracks U (fun _ _ => rfl) hadj h

theorem fetchInstr_withCapacity {i : Instr} (hf : fetchInstr s = .ok i) : fetchInstr (withCapacity c s) = .ok i :=
  ok_of_tracks (fetchInstr_tracks (unseen_withCapacity hle)) hf

/-- One step under a larger capacity, of a caller that neither loads nor peeks: the same step, unless it is an out-of-bounds
fault. -/
theorem step_withCapacity {t : State} (hcalls : ∀ q ∈ s.calls, (∀ p, q ≠ .load p) ∧ ∀ a, q ≠ .peek a)
    (h : step s = .next t) :
    step (withCapacity c s) = .next (withCapacity c t) ∨ (t.ctl = .faulted ∧ t.cause.isBounds) := by
  cases step_cases h with
  | idle hl hc hstate =>
    subst hstate
    exact .inl (step_idle (s := withCapacity c t) hl hc)
  | fetchFault e hr hf hstate =>
    subst hstate
    refine (error_of_tracks (fetchInstr_tracks (unseen_withCapacity hle)) hf).imp (fun hf' => ?_) fun hb => ⟨rfl, hb⟩
    exact step_of_fetchError (s := withCapacity c s) hr hf'
  | ran i hr hf hx =>
    refine (exec_withCapacity (s := { s with ctl := .ready }) hle hx).imp (fun hx' => ?_) ?_
    · exact (step_of_fetch (s := withCapacity c s) hr (fetchInstr_withCapacity hle hf)).trans hx'
    · rintro ⟨e, hb, rfl⟩; exact ⟨rfl, hb⟩
  | completed v dst hl hc hf hx =>
    refine (exec_withCapacity hle hx).imp (fun hx' => ?_) ?_
    · exact (step_of_supply (s := withCapacity c s) hc hl (fetchInstr_withCapacity hle hf)).trans hx'
    · rintro ⟨e, hb, rfl⟩; exact ⟨rfl, hb⟩
  | repeated r hl hwhich hstate =>
    subst hstate
    rcases hwhich with ⟨hc, rfl⟩ | ⟨hc, rfl⟩ | ⟨hc, rfl⟩
    · exact .inl (step_awaiting_resume (s := withCapacity c s) hc hl)
    · obtain ⟨rest, hcons⟩ := List.head?_eq_some_iff.1 hl
      exact .inl (step_halted_resume (s := withCapacity c s) hc hcons)
    · exact .inl (step_faulted_resume (s := withCapacity c s) hc hl)
  | outOfTurn v hl hc hstate => subst hstate; exact .inl (step_supplyInput_outOfTurn (s := withCapacity c s) hc hl)
  | latched v hl hc hstate => subst hstate; exact .inl (step_faulted_supplyInput (s := withCapacity c s) hc hl)
  | asked hl hstate => subst hstate; exact .inl (step_status (s := withCapacity c s) hl)
  | loaded p hl _ => exact absurd rfl ((hcalls _ (List.mem_of_mem_head? hl)).1 p)
  | peeked a hl _ => exact absurd rfl ((hcalls _ (List.mem_of_mem_head? hl)).2 a)

end

/-- Settles O51: step by step; an out-of-bounds fault on the way would be latched, and be the cause at the end. -/
theorem largerCapacityIsInvisible : Obligations.LargerCapacityIsInvisible := by
  intro k s t c hle hcalls hrun hcause
  induction k generalizing s with
  | zero => cases hrun; rfl
  | succ k ih =>
    obtain ⟨u, hu, ht⟩ := runFor_succ.1 hrun
    have hcallsu : ∀ q ∈ u.calls, (∀ p, q ≠ .load p) ∧ ∀ a, q ≠ .peek a := fun q hq =>
      hcalls q ((step_calls hu).subset hq)
    rcases step_withCapacity hle hcalls hu with hstep | ⟨hc, hb⟩
    · exact runFor_succ.2 ⟨withCapacity c u, hstep, ih u (step_cfg hu ▸ hle) hcallsu ht⟩
    · obtain ⟨v, hv, hlatched⟩ := runFor_latchedAs hc (fun p hp => (hcallsu _ hp).1 p rfl) k
      obtain rfl : v = t := Host.Outcome.next.inj (hv.symm.trans ht)
      exact absurd (hlatched.cause ▸ hb) hcause

end Sys2Proof.Machine
end
